-- ==== Sys2Proof/Config.lean ====
section
/-! DEFINITION. Config: the model's parameter (the word width of rule R5), its value for this hardware, the ranges it fixes,
and the one value the spec leaves open. -/

namespace Sys2Proof.Config

/-- The parameter of a core: the word width in bits, `XLEN`. "A model takes `XLEN` as an argument with `XLEN >= 64`."
R5 (00_scope.md), D1, U2. Every operation that depends on the width takes it; a core carries its own in
`Machine.State.params`. Log entry 1. -/
structure Params where
  xlen : Nat
  atLeast64 : 64 ≤ xlen
  deriving DecidableEq, Repr

/-- The word width of this hardware. R5 (00_scope.md). -/
def XLEN : Nat := 64

/-- This hardware's parameter. -/
def hardware : Params := ⟨XLEN, by decide⟩

/-- The least word, `-2^(XLEN-1)`. R5 (00_scope.md). -/
def WMIN (p : Params) : Int := -((2 ^ (p.xlen - 1) : Nat) : Int)

/-- The greatest word, `2^(XLEN-1) - 1`. R5 (00_scope.md). -/
def WMAX (p : Params) : Int := ((2 ^ (p.xlen - 1) : Nat) : Int) - 1

/-- The least value of `fval`'s `XLEN + 1` signed bits, `-2^XLEN`. R19 (10_state.md). -/
def fvalMin (p : Params) : Int := -((2 ^ p.xlen : Nat) : Int)

/-- The greatest value of `fval`'s `XLEN + 1` signed bits, `2^XLEN - 1`. R19 (10_state.md). -/
def fvalMax (p : Params) : Int := ((2 ^ p.xlen : Nat) : Int) - 1

/-- FREE VALUE. What `fval` holds after an `ArithmeticOverflow` whose exact result does not fit its `XLEN + 1` bits:
"any value" (U15 of 93_implementation_defined.md; R19 allows 0 or the exact result, R107 names 0).
It is a function of the width and the exact result, so that two equal cores behave alike (R9). Log entry 2, safe. -/
opaque fvalUnheld : Params → Int → Int

end Sys2Proof.Config
end

