-- ==== Sys2Proof/Word.lean ====
section
/-! DEFINITION. Word: the one data type of the core, a signed integer of XLEN bits (rule R5). -/

namespace Sys2Proof

/-- The set `Word` of 00_scope.md section 5: the integers from `WMIN` to `WMAX`. "A model may represent a word as an unbounded
integer constrained to `WMIN <= v <= WMAX`; no rule depends on the bit pattern of a word", R5. So the model's words are
integers, and this is the constraint, at the width of the core that holds the word; that every cell, queue entry and `rb` of
a core meets it is an invariant (R23 (b), `Machine.State.Inv`). Log entry 1. -/
abbrev Word.InRange (p : Config.Params) (x : Int) : Prop := Config.WMIN p ≤ x ∧ x ≤ Config.WMAX p

end Sys2Proof
end

