-- ==== Sys2Proof/Syntax.lean ====
section
/-! DEFINITION. Syntax: the ten instructions, one constructor per row of spec/opcode_table.json (rule R44), and their
operands as the encoding gives them: an addressing mode and an operand word (rules R41, R42). -/

namespace Sys2Proof

/-- One operand as it stands in memory: its mode digit (the constructor) and its operand word.
A relative operand keeps its offset here; the base is added at decode time by `Machine.locate` (R63).
R42 (30_encoding.md). -/
inductive Operand where
  /-- mode digit 0: the operand is the cell at address `v` -/
  | pos (v : Int)
  /-- mode digit 1: the operand is the value `v` itself -/
  | imm (v : Int)
  /-- mode digit 2: the operand is the cell at address `rb + v` -/
  | rel (v : Int)
  deriving DecidableEq, Repr

/-- The operand word of an operand. R41. -/
def Operand.word : Operand → Int
  | .pos v => v
  | .imm v => v
  | .rel v => v

/-- The instruction set: operands in operand order, operand 1 first (R41, R44, D20). -/
inductive Instr where
  /-- ADD, opcode 1: "dest = a + b". R73 -/
  | add (a b dest : Operand)
  /-- MUL, opcode 2: "dest = a * b". R74 -/
  | mul (a b dest : Operand)
  /-- IN, opcode 3: "dest = next value from input queue". R76 -/
  | inp (dest : Operand)
  /-- OUT, opcode 4: "emit value of operand to output queue". R77 -/
  | out (a : Operand)
  /-- JNZ, opcode 5: "if a != 0: jump (set PC) to b". R79 -/
  | jnz (a b : Operand)
  /-- JZ, opcode 6: "if a == 0: jump (set PC) to b". R80 -/
  | jz (a b : Operand)
  /-- LT, opcode 7: "dest = 1 if a < b else 0". R82 -/
  | lt (a b dest : Operand)
  /-- EQ, opcode 8: "dest = 1 if a == b else 0". R83 -/
  | eq (a b dest : Operand)
  /-- ARB, opcode 9: "base register += a". R85 -/
  | arb (a : Operand)
  /-- HLT, opcode 99: "halt". R87 -/
  | hlt
  deriving DecidableEq, Repr

/-- The operands of an instruction, operand 1 first. R41, R44 (30_encoding.md). -/
def Instr.operands : Instr → List Operand
  | .add a b dest => [a, b, dest]
  | .mul a b dest => [a, b, dest]
  | .inp dest => [dest]
  | .out a => [a]
  | .jnz a b => [a, b]
  | .jz a b => [a, b]
  | .lt a b dest => [a, b, dest]
  | .eq a b dest => [a, b, dest]
  | .arb a => [a]
  | .hlt => []

/-- The write operand, where there is one: "always the last operand of ADD, MUL, LT, EQ and the only operand of IN".
R44 (30_encoding.md). -/
def Instr.dest : Instr → Option Operand
  | .add _ _ dest => some dest
  | .mul _ _ dest => some dest
  | .inp dest => some dest
  | .out _ => none
  | .jnz _ _ => none
  | .jz _ _ => none
  | .lt _ _ dest => some dest
  | .eq _ _ dest => some dest
  | .arb _ => none
  | .hlt => none

/-- The length of an instruction in cells, `1 + n`. R45 (30_encoding.md). -/
def Instr.length (i : Instr) : Nat := 1 + i.operands.length

end Sys2Proof
end

