-- ==== Sys2Proof/WellFormed.lean ====
section
/-! DEFINITION. WellFormed: what a program must observe of an instruction beyond its types.
The types already hold every mode digit to 0, 1 or 2. What is left is that every operand word is a word of the core's width
(R5, R41) and that a write operand is never immediate (R42, R119 (c)).
The decoder does NOT refuse an ill-formed instruction: R49 has it decode and fault at the store. -/

namespace Sys2Proof

/-- An operand that can be stored through: positional or relative. "Immediate ... legal only for read operands", R42. -/
def Operand.writable : Operand → Bool
  | .pos _ => true
  | .imm _ => false
  | .rel _ => true

/-- The first check: every operand word is a word of the width. R5, R41. -/
def Instr.operandsInRange (p : Config.Params) (i : Instr) : Bool :=
  i.operands.all fun o => decide (Word.InRange p o.word)

/-- The second check: the write operand, where there is one, can be stored through. R42, R119 (c). -/
def Instr.destWritable (i : Instr) : Bool :=
  match i.dest with
  | some dest => dest.writable
  | none => true

/-- Both checks. -/
def Instr.wellFormed (p : Config.Params) (i : Instr) : Bool := i.operandsInRange p && i.destWritable

/-- `Instr.wellFormed` as a proposition. -/
abbrev Instr.WellFormed (p : Config.Params) (i : Instr) : Prop := i.wellFormed p = true

end Sys2Proof
end

