-- ==== Sys2Proof/Decode.lean ====
section
/-! DEFINITION. Decode: the decimal decoder (rules R38 to R50, R60, R65), the encoder (rule R52), the assembler
notation of rule R52, and the host's table decoder. The decoder reads a list of words, the cells from `pc` on; a list
that ends too early stands for an operand word outside memory. -/

namespace Sys2Proof

/-- Why a list of words is no instruction. The decoder raises these; `Machine.decodeFatal` makes each the fault
of rule R65. All safe: the spec itself makes each of them fatal. -/
inductive DecodeError where
  /-- word `i` of the instruction (0 the instruction word, then the operand words) is not there: `MemoryBounds`. R65 -/
  | missing (i : Nat)
  /-- the instruction word is negative or its opcode is not in the table: `UnknownOpcode`. R40, R46 -/
  | unknownOpcode (w : Int)
  /-- a mode digit above 2 on an operand the instruction has: `UnknownMode`. R47 -/
  | unknownMode (digit : Nat)
  /-- digits above the last operand's mode digit are not all 0: `ReservedModeDigits`. R48 -/
  | reservedModeDigits (w : Int)
  deriving DecidableEq, Repr

/-- An opcode's row: how many operands it takes and the instruction it makes of them. -/
inductive OpForm where
  | zero (i : Instr)
  | one (mk : Operand → Instr)
  | two (mk : Operand → Operand → Instr)
  | three (mk : Operand → Operand → Operand → Instr)

/-- The opcode map; every other opcode names no instruction. R44, R46 (30_encoding.md). -/
def opForm? : Nat → Option OpForm
  | 1 => some (.three .add)
  | 2 => some (.three .mul)
  | 3 => some (.one .inp)
  | 4 => some (.one .out)
  | 5 => some (.two .jnz)
  | 6 => some (.two .jz)
  | 7 => some (.three .lt)
  | 8 => some (.three .eq)
  | 9 => some (.one .arb)
  | 99 => some (.zero .hlt)
  | _ => none

/-- `digit_k(n)`: the decimal digit of weight `10^k`. 00_scope.md section 5. -/
def decimalDigit (k n : Nat) : Nat := n / 10 ^ k % 10

/-- The operand a mode digit makes of an operand word. R42 (30_encoding.md). -/
def operandOfMode? : Nat → Int → Option Operand
  | 0, v => some (.pos v)
  | 1, v => some (.imm v)
  | 2, v => some (.rel v)
  | _, _ => none

/-- Operand `i` of the instruction: its word is fetched first, then its mode digit, `digit_(i-1)(modes)`, is looked at.
R60, R65 (3.i.a), (3.i.b). -/
def decodeOperand (modes i : Nat) (ws : List Int) : Except DecodeError (Operand × List Int) :=
  match ws with
  | [] => .error (.missing i)
  | v :: rest =>
    match operandOfMode? (decimalDigit (i - 1) modes) v with
    | some o => .ok (o, rest)
    | none => .error (.unknownMode (decimalDigit (i - 1) modes))

/-- The last check of the decoder: the digits above the `n`-th mode digit are 0. R48, R65 (4). -/
def checkExcess (w : Int) (modes n : Nat) (i : Instr) (rest : List Int) : Except DecodeError (Instr × List Int) :=
  if modes / 10 ^ n = 0 then .ok (i, rest) else .error (.reservedModeDigits w)

/-- The operands of an opcode, in operand order, then the check on the digits above them. R60, R65. -/
def decodeForm (w : Int) (modes : Nat) (form : OpForm) (ws : List Int) : Except DecodeError (Instr × List Int) :=
  match form with
  | .zero i => checkExcess w modes 0 i ws
  | .one mk => do
    let (o1, ws) ← decodeOperand modes 1 ws
    checkExcess w modes 1 (mk o1) ws
  | .two mk => do
    let (o1, ws) ← decodeOperand modes 1 ws
    let (o2, ws) ← decodeOperand modes 2 ws
    checkExcess w modes 2 (mk o1 o2) ws
  | .three mk => do
    let (o1, ws) ← decodeOperand modes 1 ws
    let (o2, ws) ← decodeOperand modes 2 ws
    let (o3, ws) ← decodeOperand modes 3 ws
    checkExcess w modes 3 (mk o1 o2 o3) ws

/-- The row an instruction word selects: a negative word selects none, and `mod` is never applied to it. R39, R40. -/
def formOfWord? (w : Int) : Option OpForm :=
  if w < 0 then none else opForm? (w.toNat % 100)

/-- The decoder: the instruction at the head of a list of words, and the words after it. Total; refuses by name.
R50, R60, R65. -/
def decode (ws : List Int) : Except DecodeError (Instr × List Int) :=
  match ws with
  | [] => .error (.missing 0)
  | w :: rest =>
    match formOfWord? w with
    | none => .error (.unknownOpcode w)
    | some form => decodeForm w (w.toNat / 100) form rest

/-! ### The encoder -/

/-- The mode digit of an operand. R42. -/
def Operand.modeDigit : Operand → Nat
  | .pos _ => 0
  | .imm _ => 1
  | .rel _ => 2

/-- The opcode of an instruction. R44. -/
def Instr.opcode : Instr → Nat
  | .add _ _ _ => 1
  | .mul _ _ _ => 2
  | .inp _ => 3
  | .out _ => 4
  | .jnz _ _ => 5
  | .jz _ _ => 6
  | .lt _ _ _ => 7
  | .eq _ _ _ => 8
  | .arb _ => 9
  | .hlt => 99

/-- The mode digits of operands as one number, operand 1's digit the least significant. R38, R43. -/
def modesNumber : List Operand → Nat
  | [] => 0
  | o :: os => o.modeDigit + 10 * modesNumber os

/-- The instruction word: `opcode + 100 * mode_1 + 1000 * mode_2 + 10000 * mode_3`. R52 (30_encoding.md). -/
def instructionWord (i : Instr) : Int := ((i.opcode + 100 * modesNumber i.operands : Nat) : Int)

/-- The encoder: the instruction word, then the operand words in operand order. R41, R52. -/
def encode (i : Instr) : List Int := instructionWord i :: i.operands.map Operand.word

/-! ### The assembler notation of rule R52 -/

/-- An operand in the notation of R52: `[a]`, `#v` or `[rb+k]`. -/
def Operand.assembly : Operand → String
  | .pos v => "[" ++ toString v ++ "]"
  | .imm v => "#" ++ toString v
  | .rel v => "[rb" ++ (if v < 0 then "-" else "+") ++ toString v.natAbs ++ "]"

/-- The mnemonic of an instruction. R44, R52. -/
def Instr.mnemonic : Instr → String
  | .add _ _ _ => "ADD"
  | .mul _ _ _ => "MUL"
  | .inp _ => "IN"
  | .out _ => "OUT"
  | .jnz _ _ => "JNZ"
  | .jz _ _ => "JZ"
  | .lt _ _ _ => "LT"
  | .eq _ _ _ => "EQ"
  | .arb _ => "ARB"
  | .hlt => "HLT"

/-- Operands in the notation of R52, separated by commas. -/
def operandsAssembly : List Operand → String
  | [] => ""
  | [o] => " " ++ o.assembly
  | o :: os => " " ++ o.assembly ++ "," ++ operandsAssembly os

/-- An instruction in the notation of R52: `MNEMONIC operand, operand, operand`. -/
def Instr.assembly (i : Instr) : String := i.mnemonic ++ operandsAssembly i.operands

/-! ### The host's words -/

/-- The most cells an instruction takes. R45. -/
def maxInstrLength : Nat := 4

/-- The word of this hardware whose 64 bits, read as a two's complement number, are the low 64 bits of `n`; it is a word
at every width (`XLEN >= 64`). R5.
No rule of the spec depends on a word's bits; only the host's numbering of an instruction's bits does. Log entry 6. -/
def wordOfBits (n : Nat) : Int :=
  let low := n % 18446744073709551616
  if low < 9223372036854775808 then (low : Int) else (low : Int) - 18446744073709551616

/-- The cells, as many as the longest instruction has, of an instruction whose bits are `w`, bit 0 the least significant
bit of the instruction word and 64 bits a cell. The table gives each row one instruction word and no bits to its operand
words, so the bits above the row's `nbits`, or above the instruction word where `nbits` is less, are 0. Log entry 6. -/
def tableWords (nbits w : Nat) : List Int :=
  let bits := w % 2 ^ max nbits 64
  (List.range maxInstrLength).map fun k => wordOfBits (bits / 2 ^ (64 * k))

/-- What the decoder reads from an instruction whose bits are `w`, for the host. Log entry 6. -/
def decodeTableWord (nbits w : Nat) : Option Instr :=
  match decode (tableWords nbits w) with
  | .ok (i, _) => some i
  | .error _ => none

end Sys2Proof
end

