-- ==== Sys2Proof/Machine/State.lean ====
section
/-! DEFINITION. State: the whole state of one core (rules R9, R97), the fatal errors it records (rule R100), the reasons
a step or a transaction can stop, and the state after reset (rule R22). -/

namespace Sys2Proof.Machine

/-- The run-state register's values. R16 (10_state.md). -/
inductive RunState where
  /-- an instruction executed and the next step may run; also the reset value -/
  | running
  /-- the instruction at `pc` is an IN and `inq` is empty -/
  | needsInput
  /-- a HLT was executed; terminal -/
  | halted
  /-- a fatal error occurred; terminal -/
  | faulted
  deriving DecidableEq, Repr

/-- The causes of a fatal error, codes 1 to 7. R100 (60_exceptions.md). -/
inductive FaultCause where
  /-- code 1, R101 -/
  | unknownOpcode
  /-- code 2, R102 -/
  | unknownMode
  /-- code 3, R103 -/
  | reservedModeDigits
  /-- code 4, R104 -/
  | writeToImmediate
  /-- code 5, R105 -/
  | memoryBounds
  /-- code 6, R107 -/
  | arithmeticOverflow
  /-- code 7, R108 -/
  | pcRange
  deriving DecidableEq, Repr

/-- What `raise Fatal(cause, value)` raises. 00_scope.md section 5, R99. -/
structure Fatal where
  cause : FaultCause
  value : Int
  deriving DecidableEq, Repr

/-- The memory: `size` is `MEM_SIZE` (R6, R97), and `cells` lists, by strictly rising address, the cells that hold
another word than 0, so that equal memories are equal data (`Memory.wf`). The smallest addressable unit is the whole
word and nothing can observe a byte (R25, R31), so a cell holds one word. Log entry 4. -/
structure Memory where
  size : Nat
  cells : List (Nat × Int)
  deriving DecidableEq, Repr

/-- The state of one core: the tuple of R9 (10_state.md) with `MEM_SIZE` (R97, in `mem`), and the parameter `XLEN` the core
is built with (R5), so that the step takes it as an argument. Its words are integers that `State.Inv` holds to `XLEN`
bits. -/
structure State where
  /-- NOT state of the spec: the parameter of the model (R5). No transaction changes it. Log entry 1. -/
  params : Config.Params
  /-- the memory, R25 -/
  mem : Memory
  /-- the program counter, R11 -/
  pc : Nat
  /-- the relative base register, a word, R13 -/
  rb : Int
  /-- the input queue, words, head first, R14 -/
  inq : List Int
  /-- the output queue, words, head first, R15 -/
  outq : List Int
  /-- the run-state register, R16 -/
  rs : RunState
  /-- the fault cause register, R17; `none` is code 0, `None` -/
  fcause : Option FaultCause
  /-- the fault program counter, R18 -/
  fpc : Nat
  /-- the fault value register, R19 -/
  fval : Int
  deriving DecidableEq, Repr

/-- Reasons a step stops OUTSIDE the architecture: none. Every fatal error of the spec is an entry into `Faulted` that
R106 describes, so it is a next state. With no constructor, no step and no transaction can end in a fault: safe, since
every stop of the machine then shows in `rs`. -/
inductive Fault where
  deriving DecidableEq, Repr

/-- Reasons a transition is refused. No step refuses; the others are raised by host transactions only. -/
inductive Refusal where
  /-- raised by `exec` for an instruction that has no meaning yet; none is left. Safe. -/
  | notModelled (mnemonic : String)
  /-- raised by `hostMemRead` and `hostMemWrite` for an address outside `[0, MEM_SIZE)`, which "is not a transaction of
  the machine ... a model gives it no transition" (R94, R95, U17). Safe. -/
  | hostAddressOutsideMemory
  /-- raised by `hostReset` for an image longer than `WMAX`, which R6 excludes (`0 <= MEM_SIZE <= WMAX`). Safe. -/
  | imageTooLong
  /-- raised by `hostReset`, `hostPushInput` and `hostMemWrite` for a value outside `[WMIN, WMAX]`: "a value outside `Word`
  cannot be pushed" (R92), nor written (R95), nor loaded (R90); U17. Safe. -/
  | notAWord
  deriving DecidableEq, Repr

/-- The machine right after `RESET` with the empty image and no input: every register at the value of R22, R117 and
`mem`, `inq` as R116 loads them from `IMAGE = []`, `INPUT0 = []` (an empty image is allowed, R116).
The reset state of any other image and width is `resetWith`. Log entry 3. -/
def State.reset : State where
  params := Config.hardware
  mem := ⟨0, []⟩
  pc := 0
  rb := 0
  inq := []
  outq := []
  rs := .running
  fcause := none
  fpc := 0
  fval := 0

end Sys2Proof.Machine
end

