-- ==== Sys2Proof/Machine/Ops.lean ====
section
/-! DEFINITION. Ops: the named operations over memory and registers: the access primitives (rules R29, R30), loading an
image (rule R116), the commit and the report of a step (rules R56, R57), fault entry (rule R106), and the fetch and
decode of one instruction (rule R60). -/

namespace Sys2Proof.Machine

/-! ### Memory -/

/-- The word a list of cells holds at an address; an address it does not list holds 0. -/
def cellsGet : List (Nat × Int) → Nat → Int
  | [], _ => 0
  | (b, u) :: rest, a => if a = b then u else cellsGet rest a

/-- The list with cell `v` listed before `rest`, or left out where it is 0. -/
def cellsCons (a : Nat) (v : Int) (rest : List (Nat × Int)) : List (Nat × Int) :=
  if v = 0 then rest else (a, v) :: rest

/-- The list with the cell at `a` replaced by `v`, its canonical form kept. -/
def cellsPut : List (Nat × Int) → Nat → Int → List (Nat × Int)
  | [], a, v => cellsCons a v []
  | (b, u) :: rest, a, v =>
    if a < b then cellsCons a v ((b, u) :: rest)
    else if a = b then cellsCons a v rest
    else (b, u) :: cellsPut rest a v

/-- The cells of an image whose element 0 is loaded at `a`. R116 (70_reset_and_hazards.md). -/
def imageCells : Nat → List Int → List (Nat × Int)
  | _, [] => []
  | a, v :: rest => cellsCons a v (imageCells (a + 1) rest)

/-- The memory that `RESET` makes of an image: `MEM_SIZE <- len(IMAGE)`, `mem[a] <- IMAGE[a]`. R116. -/
def Memory.ofImage (image : List Int) : Memory := ⟨image.length, imageCells 0 image⟩

/-- Addresses rise strictly from `low` on and stay below `size`, and no listed cell is 0. -/
def cellsWf (size : Nat) : Nat → List (Nat × Int) → Bool
  | _, [] => true
  | low, (a, v) :: rest => decide (low ≤ a) && decide (a < size) && decide (v ≠ 0) && cellsWf size (a + 1) rest

/-- The canonical form of a memory. Log entry 4. -/
def Memory.wf (m : Memory) : Bool := cellsWf m.size 0 m.cells

/-- The bounds check, "the only check on an address". R27, R34 (20_memory.md). -/
abbrev Memory.Valid (m : Memory) (a : Int) : Prop := 0 ≤ a ∧ a < m.size

/-- `MemRead(addr, 1)`. R29 (20_memory.md). -/
def memRead (m : Memory) (a : Int) : Except Fatal Int :=
  if m.Valid a then .ok (cellsGet m.cells a.toNat) else .error ⟨.memoryBounds, a⟩

/-- `MemWrite(addr, 1, v)`: the memory after it. R30 (20_memory.md). -/
def memWrite (m : Memory) (a : Int) (v : Int) : Except Fatal Memory :=
  if m.Valid a then .ok { m with cells := cellsPut m.cells a.toNat v } else .error ⟨.memoryBounds, a⟩

/-! ### The sequencer's writes -/

/-- A step is enabled when `rs` is `Running` or `NeedsInput`. R55 (40_sequencer_and_decode.md). -/
def RunState.enabled : RunState → Bool
  | .running => true
  | .needsInput => true
  | .halted => false
  | .faulted => false

/-- Phase 3 of the step, for an instruction of `n` cells: the fall-through value becomes the `pc`. R57. -/
def commit (s : State) (n : Nat) : State := { s with pc := s.pc + n }

/-- Phase 5 of the step: the run-state it reports, left in `rs`. R56. -/
def report (s : State) (r : RunState) : State := { s with rs := r }

/-! ### Fault entry -/

/-- What `fval` holds of an exact arithmetic result: the result where the register's `XLEN + 1` signed bits can hold it,
else a free value. R19 (10_state.md), R107 (60_exceptions.md), U15. Log entry 2. -/
def heldResult (p : Config.Params) (x : Int) : Int :=
  if Config.fvalMin p ≤ x ∧ x ≤ Config.fvalMax p then x else Config.fvalUnheld p x

/-- The value a fatal error leaves in `fval`. R100, R106 (60_exceptions.md). -/
def Fatal.recorded (p : Config.Params) (f : Fatal) : Int :=
  match f.cause with
  | .unknownOpcode => f.value
  | .unknownMode => f.value
  | .reservedModeDigits => f.value
  | .writeToImmediate => f.value
  | .memoryBounds => f.value
  | .arithmeticOverflow => heldResult p f.value
  | .pcRange => f.value

/-- Fault entry: the one operation that takes a fatal error. `s` is the state at the start of the step: every write of
the faulting step is undone (R110), `rs`, `fcause`, `fpc` and `fval` are written, and control goes nowhere.
R106 (60_exceptions.md). There is no return from it: no instruction and no step leaves `Faulted`, only `RESET` (R111). -/
def takeFault (s : State) (f : Fatal) : State :=
  { s with rs := .faulted, fcause := some f.cause, fpc := s.pc, fval := f.recorded s.params }

/-- The code of a cause register. R100 (60_exceptions.md). -/
def causeCode : Option FaultCause → Nat
  | none => 0
  | some .unknownOpcode => 1
  | some .unknownMode => 2
  | some .reservedModeDigits => 3
  | some .writeToImmediate => 4
  | some .memoryBounds => 5
  | some .arithmeticOverflow => 6
  | some .pcRange => 7

/-- Phases 4 and 5 of a step that began in `s`: what `Execute` answers is reported as `Running`, what it raises is taken
as a fault of the state `s`. R56 (40_sequencer_and_decode.md). -/
def conclude (s : State) (r : Except Fatal State) : Host.Outcome State Fault Refusal :=
  match r with
  | .ok t => .next (report t .running)
  | .error f => .next (takeFault s f)

/-! ### Fetch and decode -/

/-- The words from address `a` on, `n` of them at most, up to the end of memory. R41 (30_encoding.md). -/
def fetchWords (m : Memory) : Nat → Nat → List Int
  | 0, _ => []
  | n + 1, a =>
    match memRead m a with
    | .ok w => w :: fetchWords m n (a + 1)
    | .error _ => []

/-- The fatal error a refusal of the decoder raises at `pc`. R65 (40_sequencer_and_decode.md), R101 to R103, R105. -/
def decodeFatal (pc : Nat) : DecodeError → Fatal
  | .missing i => ⟨.memoryBounds, (pc : Int) + i⟩
  | .unknownOpcode w => ⟨.unknownOpcode, w⟩
  | .unknownMode digit => ⟨.unknownMode, digit⟩
  | .reservedModeDigits w => ⟨.reservedModeDigits, w⟩

/-- Phase 1 of the step: the instruction at `pc`, or the fatal error that decoding it raises. It reads `mem` and `pc`
alone and writes nothing; the base is added to relative operands by `locate` in the same step, before anything is
written (R63, log entry 5). R60, R61 (40_sequencer_and_decode.md). -/
def fetchInstr (m : Memory) (pc : Nat) : Except Fatal Instr :=
  match decode (fetchWords m maxInstrLength pc) with
  | .ok (i, _) => .ok i
  | .error e => .error (decodeFatal pc e)

/-! ### Loading -/

/-- The cells with a run of words put at address `a` and on. -/
def cellsPutAll : List (Nat × Int) → Nat → List Int → List (Nat × Int)
  | cells, _, [] => cells
  | cells, a, v :: rest => cellsPutAll (cellsPut cells a v) (a + 1) rest

/-- A memory with a run of words in the cells `a` and on, grown to hold them where it is shorter: what loading another
image does (R116). No step does this (R28). Log entry 6. -/
def loadWords (m : Memory) (a : Nat) (ws : List Int) : Memory :=
  ⟨max m.size (a + ws.length), cellsPutAll m.cells a ws⟩

/-- A state whose next step is enabled: `s` itself where it is; else with `rs` and the fault registers as `RESET` leaves
them, the only transaction that leaves `Halted` or `Faulted` (R90, R111). Log entry 6. -/
def enableStep (s : State) : State :=
  if s.rs.enabled then s else { s with rs := .running, fcause := none, fpc := 0, fval := 0 }

/-- `RESET(IMAGE, INPUT0)` of a core of the given width: the state it leaves. R22 (10_state.md), R90, R116, R117. -/
def resetWith (p : Config.Params) (image input0 : List Int) : State :=
  { State.reset with params := p, mem := Memory.ofImage image, inq := input0 }

end Sys2Proof.Machine
end

