-- ==== Sys2Proof/Machine/Flags.lean ====
section
/-! DEFINITION. Flags: the core has no flags and no condition codes (rule R20). What stands in their place: the range
check on arithmetic results (rule R75), the truth value a comparison stores (rule R84), and the zero test of the jumps
(rules R79, R80). -/

namespace Sys2Proof.Machine

/-- The exact result `x` as a word, or `ArithmeticOverflow`; never reduced, saturated or truncated.
R75 (41_arithmetic.md), R107. -/
def narrow (p : Config.Params) (x : Int) : Except Fatal Int :=
  if Word.InRange p x then .ok x else .error ⟨.arithmeticOverflow, x⟩

/-- "Exactly 1 or 0, never other values". R84 (44_compare.md). -/
def truthWord (b : Bool) : Int := if b then 1 else 0

/-- The zero test of the conditional jumps, on the signed word. R79, R80 (43_jump.md). -/
def isZero (x : Int) : Bool := decide (x = 0)

/-- The `pc` a taken jump to `b` loads: the target itself, or `PcRange` when it is negative.
R81 (43_jump.md), R108. -/
def jumpTarget (b : Int) : Except Fatal Nat :=
  if b < 0 then .error ⟨.pcRange, b⟩ else .ok b.toNat

end Sys2Proof.Machine
end

