-- ==== Sys2Proof/Machine/Operands.lean ====
section
/-! DEFINITION. Operands: the decoded operand forms (rule R62), the two operand primitives of the executor,
`ReadOperand` (rule R66) and `StoreOperand` (rule R67), and the order of accesses that the instructions with two read
operands share (rule R68). -/

namespace Sys2Proof.Machine

/-- A decoded operand: "a tagged value, one of {immediate value, positional address, relative address (address + current
base)}". R62 (40_sequencer_and_decode.md). -/
inductive Located where
  | imm (v : Int)
  | pos (a : Int)
  /-- the address `rb + v`, an `Int` that never wraps, R64 -/
  | rel (a : Int)
  deriving DecidableEq, Repr

/-- The decoded form of an operand, the base register's value at decode time being `rb`: the sum `rb + v` is formed once,
in `Int`. R63, R64 (40_sequencer_and_decode.md). -/
def locate (rb : Int) : Operand → Located
  | .pos v => .pos v
  | .imm v => .imm v
  | .rel v => .rel (rb + v)

/-- The address of the cell an operand names, where it names one. R62. -/
def Located.address : Located → Option Int
  | .imm _ => none
  | .pos a => some a
  | .rel a => some a

/-- `ReadOperand`. R66 (40_sequencer_and_decode.md). -/
def readOperand (m : Memory) : Located → Except Fatal Int
  | .imm v => .ok v
  | .pos a => memRead m a
  | .rel a => memRead m a

/-- `StoreOperand`: the memory after it. R67 (40_sequencer_and_decode.md). -/
def storeOperand (m : Memory) (o : Located) (x : Int) : Except Fatal Memory :=
  match o with
  | .imm v => .error ⟨.writeToImmediate, v⟩
  | .pos a => memWrite m a x
  | .rel a => memWrite m a x

/-- Both read operands, operand 1 first, each loaded whatever becomes of it. R68 (40_sequencer_and_decode.md). -/
def readTwo (m : Memory) (o1 o2 : Located) : Except Fatal (Int × Int) := do
  let a ← readOperand m o1
  let b ← readOperand m o2
  .ok (a, b)

/-- What ADD, MUL, LT and EQ share: after the commit of 4 cells both operands are loaded, `f` computes the result or
raises, and the store through operand 3 comes last. The operands are located with the `rb` of decode time.
R56, R68 (40_sequencer_and_decode.md). -/
def computeAndStore (f : Int → Int → Except Fatal Int) (a b dest : Operand) (s : State) : Except Fatal State := do
  let (x, y) ← readTwo s.mem (locate s.rb a) (locate s.rb b)
  let r ← f x y
  let m ← storeOperand s.mem (locate s.rb dest) r
  .ok { commit s 4 with mem := m }

end Sys2Proof.Machine
end

