-- ==== Sys2Proof/Machine/Arithmetic.lean ====
section
/-! DEFINITION. Arithmetic: ADD and MUL (41_arithmetic.md, rules R73 to R75). -/

namespace Sys2Proof.Machine

/-- ADD: "dest = a + b", exact or `ArithmeticOverflow`. R73 (41_arithmetic.md). -/
def execAdd (a b dest : Operand) (s : State) : Host.Outcome State Fault Refusal :=
  conclude s (computeAndStore (fun x y => narrow s.params (x + y)) a b dest s)

/-- MUL: "dest = a * b", exact or `ArithmeticOverflow`. R74 (41_arithmetic.md). -/
def execMul (a b dest : Operand) (s : State) : Host.Outcome State Fault Refusal :=
  conclude s (computeAndStore (fun x y => narrow s.params (x * y)) a b dest s)

end Sys2Proof.Machine
end

