-- ==== Sys2Proof/Machine/Base.lean ====
section
/-! DEFINITION. Base: ARB (45_base.md, rules R85, R86). -/

namespace Sys2Proof.Machine

/-- ARB: "base register += a", exact or `ArithmeticOverflow`; a relative operand is read with the old base (R63).
R85 (45_base.md). -/
def execArb (a : Operand) (s : State) : Host.Outcome State Fault Refusal :=
  conclude s (do
    let x ← readOperand s.mem (locate s.rb a)
    let rb ← narrow s.params (s.rb + x)
    .ok { commit s 2 with rb := rb })

end Sys2Proof.Machine
end

