-- ==== Sys2Proof/Machine/Compare.lean ====
section
/-! DEFINITION. Compare: LT and EQ (44_compare.md, rules R82 to R84). -/

namespace Sys2Proof.Machine

/-- LT: "dest = 1 if a < b else 0", on signed values. R82 (44_compare.md). -/
def execLt (a b dest : Operand) (s : State) : Host.Outcome State Fault Refusal :=
  conclude s (computeAndStore (fun x y => .ok (truthWord (decide (x < y)))) a b dest s)

/-- EQ: "dest = 1 if a == b else 0", on signed values. R83 (44_compare.md). -/
def execEq (a b dest : Operand) (s : State) : Host.Outcome State Fault Refusal :=
  conclude s (computeAndStore (fun x y => .ok (truthWord (decide (x = y)))) a b dest s)

end Sys2Proof.Machine
end

