-- ==== Sys2Proof/Machine/Halt.lean ====
section
/-! DEFINITION. Halt: HLT (46_halt.md, rules R87, R88). -/

namespace Sys2Proof.Machine

/-- HLT: the commit of 1 cell, then `rs <- Halted`; nothing else changes. R87 (46_halt.md). -/
def execHlt (s : State) : Host.Outcome State Fault Refusal :=
  .next (report (commit s 1) .halted)

end Sys2Proof.Machine
end

