-- ==== Sys2Proof/Machine/InputOutput.lean ====
section
/-! DEFINITION. InputOutput: IN and OUT (42_io.md, rules R76 to R78). -/

namespace Sys2Proof.Machine

/-- IN: on an empty queue the step reports `NeedsInput` and changes nothing else, before its operand is examined (R58);
otherwise the head of `inq` is removed and stored. R76 (42_io.md). -/
def execIn (dest : Operand) (s : State) : Host.Outcome State Fault Refusal :=
  match s.inq with
  | [] => .next (report s .needsInput)
  | x :: rest => conclude s (do
      let m ← storeOperand s.mem (locate s.rb dest) x
      .ok { commit s 2 with mem := m, inq := rest })

/-- OUT: the operand's value is appended to `outq`; never blocks. R77 (42_io.md). -/
def execOut (a : Operand) (s : State) : Host.Outcome State Fault Refusal :=
  conclude s (do
    let x ← readOperand s.mem (locate s.rb a)
    .ok { commit s 2 with outq := s.outq ++ [x] })

end Sys2Proof.Machine
end

