-- ==== Sys2Proof/Machine/Jump.lean ====
section
/-! DEFINITION. Jump: JNZ and JZ (43_jump.md, rules R79 to R81). -/

namespace Sys2Proof.Machine

/-- What JNZ and JZ share: after the commit of 3 cells both operands are loaded, taken or not (R68 (c)), and a taken jump
overrides the committed `pc` (R57), its target examined only then (R81 (e)). -/
def jumpWhen (taken : Int → Bool) (a b : Operand) (s : State) : Except Fatal State := do
  let (x, y) ← readTwo s.mem (locate s.rb a) (locate s.rb b)
  if taken x then
    let target ← jumpTarget y
    .ok { commit s 3 with pc := target }
  else .ok (commit s 3)

/-- JNZ: "if a != 0: jump (set PC) to b". R79 (43_jump.md). -/
def execJnz (a b : Operand) (s : State) : Host.Outcome State Fault Refusal :=
  conclude s (jumpWhen (fun x => !isZero x) a b s)

/-- JZ: "if a == 0: jump (set PC) to b". R80 (43_jump.md). -/
def execJz (a b : Operand) (s : State) : Host.Outcome State Fault Refusal :=
  conclude s (jumpWhen isZero a b s)

end Sys2Proof.Machine
end

