-- ==== Sys2Proof/Machine/Dispatch.lean ====
section
/-! DEFINITION. Dispatch: one arm per instruction (rule R69). A meaning holds phases 2 to 5 of the step (rule R56). -/

namespace Sys2Proof.Machine

/-- The executor: phases 2 to 5 of the step that decoded `i` in `s`. R56, R69 (40_sequencer_and_decode.md). -/
def exec (i : Instr) (s : State) : Host.Outcome State Fault Refusal :=
  match i with
  | .add a b dest => Sys2Proof.Machine.execAdd a b dest s
  | .mul a b dest => Sys2Proof.Machine.execMul a b dest s
  | .inp dest => Sys2Proof.Machine.execIn dest s
  | .out a => Sys2Proof.Machine.execOut a s
  | .jnz a b => Sys2Proof.Machine.execJnz a b s
  | .jz a b => Sys2Proof.Machine.execJz a b s
  | .lt a b dest => Sys2Proof.Machine.execLt a b dest s
  | .eq a b dest => Sys2Proof.Machine.execEq a b dest s
  | .arb a => Sys2Proof.Machine.execArb a s
  | .hlt => Sys2Proof.Machine.execHlt s

end Sys2Proof.Machine
end

