-- ==== Sys2Proof/Machine/Step.lean ====
section
/-! DEFINITION. Step: the step sequencer (rules R54 to R56), and where the host places an instruction word. -/

namespace Sys2Proof.Machine

/-- One `STEP`: phase 1 decodes and may raise; then the executor. In `Halted` and `Faulted` it changes nothing (R55, R91).
R56 (40_sequencer_and_decode.md). Log entry 7. -/
def step (s : State) : Host.Outcome State Fault Refusal :=
  if s.rs.enabled then
    match fetchInstr s.mem s.pc with
    | .ok i => exec i s
    | .error f => .next (takeFault s f)
  else .next s

/-- The state whose next step runs the instruction whose bits are `w`: its cells stand at `pc`, in memory long enough to
hold them, and the step is enabled. Programs are loaded from outside the machine, by `RESET` with an image (R115, R116);
this stands for that load. Log entry 6. -/
def State.withFetchWord (s : State) (nbits w : Nat) : State :=
  { enableStep s with mem := loadWords s.mem s.pc (tableWords nbits w) }

end Sys2Proof.Machine
end

