-- ==== Sys2Proof/Machine/HostInterface.lean ====
section
/-! DEFINITION. HostInterface: the nine transactions a host may perform between steps (47_host_interface.md, rules R89 to
R96), and nothing else it may do: a value that is no word of the core's width is refused (U17). -/

namespace Sys2Proof.Machine

/-- The transactions. R89 (47_host_interface.md). -/
inductive Transaction where
  /-- `RESET(IMAGE, INPUT0)`, R90 -/
  | reset (image input0 : List Int)
  /-- `STEP`, R91 -/
  | step
  /-- `PUSH_INPUT(v)`, R92 -/
  | pushInput (v : Int)
  /-- `READ_INPUT`, R92 -/
  | readInput
  /-- `POP_OUTPUT`, R93 -/
  | popOutput
  /-- `READ_OUTPUT`, R93 -/
  | readOutput
  /-- `MEM_READ(a)`, R94 -/
  | memRead (a : Int)
  /-- `MEM_WRITE(a, v)`, R95 -/
  | memWrite (a : Int) (v : Int)
  /-- `READ_STATUS`, R89, R91 -/
  | readStatus
  deriving DecidableEq, Repr

/-- What a transaction returns. R89 (47_host_interface.md). -/
inductive Reply where
  | nothing
  | runState (rs : RunState)
  | queue (q : List Int)
  | word (v : Int)
  /-- `POP_OUTPUT` on an empty queue -/
  | empty
  | status (rs : RunState) (fcause : Option FaultCause) (fpc : Nat) (fval : Int) (pc : Nat) (rb : Int)
  deriving DecidableEq, Repr

/-- The outcome of a transaction: the state after it and what it returns, or a refusal of what is no transaction. -/
abbrev Transacted := Host.Outcome (State × Reply) Fault Refusal

/-- Every value of a sequence is a word of the width. -/
abbrev AllWords (p : Config.Params) (ws : List Int) : Prop := ∀ v ∈ ws, Word.InRange p v

/-- `RESET`: construction, allowed in every run-state, at the core's own width; the image must fit
`0 <= MEM_SIZE <= WMAX` (R6) and "every element of `IMAGE` and `INPUT0` must be a `Word`". R90, R115. -/
def hostReset (image input0 : List Int) (s : State) : Transacted :=
  if (image.length : Int) ≤ Config.WMAX s.params then
    if AllWords s.params image ∧ AllWords s.params input0 then .next (resetWith s.params image input0, .nothing)
    else .refused .notAWord
  else .refused .imageTooLong

/-- `STEP`: one step, and the run-state it leaves in `rs`. R91. -/
def hostStep (s : State) : Transacted :=
  match step s with
  | .next t => .next (t, .runState t.rs)
  | .fault r => .fault r
  | .refused r => .refused r

/-- `PUSH_INPUT(v)`: "changes `inq` only"; "a value outside `Word` cannot be pushed". R92. -/
def hostPushInput (v : Int) (s : State) : Transacted :=
  if Word.InRange s.params v then .next ({ s with inq := s.inq ++ [v] }, .nothing) else .refused .notAWord

/-- `READ_INPUT`. R92. -/
def hostReadInput (s : State) : Transacted := .next (s, .queue s.inq)

/-- `POP_OUTPUT`: the head of `outq`, or "empty" with nothing changed. R93. -/
def hostPopOutput (s : State) : Transacted :=
  match s.outq with
  | [] => .next (s, .empty)
  | v :: rest => .next ({ s with outq := rest }, .word v)

/-- `READ_OUTPUT`. R93. -/
def hostReadOutput (s : State) : Transacted := .next (s, .queue s.outq)

/-- `MEM_READ(a)`: allowed in every run-state; an address outside memory is no transaction. R94. -/
def hostMemRead (a : Int) (s : State) : Transacted :=
  match memRead s.mem a with
  | .ok v => .next (s, .word v)
  | .error _ => .refused .hostAddressOutsideMemory

/-- `MEM_WRITE(a, v)`: "sets `mem[a] <- v` ... and changes nothing else"; an address outside memory, or a
value that is no word, is no transaction. R95. -/
def hostMemWrite (a : Int) (v : Int) (s : State) : Transacted :=
  match memWrite s.mem a v with
  | .ok m => if Word.InRange s.params v then .next ({ s with mem := m }, .nothing) else .refused .notAWord
  | .error _ => .refused .hostAddressOutsideMemory

/-- `READ_STATUS`. R89, R91. -/
def hostReadStatus (s : State) : Transacted := .next (s, .status s.rs s.fcause s.fpc s.fval s.pc s.rb)

/-- One transaction on a core. R89, R96 (47_host_interface.md). -/
def transact (tx : Transaction) (s : State) : Transacted :=
  match tx with
  | .reset image input0 => hostReset image input0 s
  | .step => hostStep s
  | .pushInput v => hostPushInput v s
  | .readInput => hostReadInput s
  | .popOutput => hostPopOutput s
  | .readOutput => hostReadOutput s
  | .memRead a => hostMemRead a s
  | .memWrite a v => hostMemWrite a v s
  | .readStatus => hostReadStatus s

end Sys2Proof.Machine
end

