-- ==== Sys2Proof/Safety.lean ====
section
/-! DEFINITION. Safety: the invariants of rule R23, the states a host can bring a core to, and what ends a run (R72). -/

namespace Sys2Proof.Machine

/-- The invariants "between steps in every reachable state". R23 (10_state.md), with the bound of R6 and the fault
registers' rules R17, R18, R19. -/
structure State.Inv (s : State) : Prop where
  /-- the memory is in canonical form (log entry 4) -/
  memWf : s.mem.wf = true
  /-- `MEM_SIZE <= WMAX`, R6 -/
  memSize : (s.mem.size : Int) ≤ Config.WMAX s.params
  /-- `0 <= pc <= WMAX`, R23 (a) -/
  pcRange : (s.pc : Int) ≤ Config.WMAX s.params
  /-- every cell is a `Word`, R23 (b) -/
  memWords : ∀ (a : Int) (v : Int), memRead s.mem a = .ok v → Word.InRange s.params v
  /-- `rb` is a `Word`, R23 (b) -/
  rbWord : Word.InRange s.params s.rb
  /-- every entry of `inq` is a `Word`, R23 (b) -/
  inqWords : AllWords s.params s.inq
  /-- every entry of `outq` is a `Word`, R23 (b) -/
  outqWords : AllWords s.params s.outq
  /-- `rs = Faulted` if and only if `fcause != 0`, R23 (d) -/
  faultedIff : s.rs = .faulted ↔ s.fcause ≠ none
  /-- "Zero while `rs != Faulted`", R18 -/
  fpcZero : s.rs ≠ .faulted → s.fpc = 0
  /-- "Zero while `rs != Faulted`", R19 -/
  fvalZero : s.rs ≠ .faulted → s.fval = 0
  /-- "`fpc = pc` whenever `rs = Faulted`", R18 -/
  fpcIsPc : s.rs = .faulted → s.fpc = s.pc

/-- The states that a host's transactions lead to, at any width, from a `RESET` on (a core has no defined state
before it, R115). -/
inductive Reachable : State → Prop where
  | reset (p : Config.Params) (image input0 : List Int) (hsize : (image.length : Int) ≤ Config.WMAX p)
      (himage : AllWords p image) (hinput : AllWords p input0) : Reachable (resetWith p image input0)
  | transact (s t : State) (tx : Transaction) (reply : Reply) (hs : Reachable s)
      (ht : Sys2Proof.Machine.transact tx s = .next (t, reply)) : Reachable t

/-- `k` `STEP`s with no other transaction between them. R91 (47_host_interface.md). -/
def runSteps : Nat → State → Host.Outcome State Fault Refusal
  | 0, s => .next s
  | k + 1, s =>
    match step s with
    | .next t => runSteps k t
    | .fault r => .fault r
    | .refused r => .refused r

/-- A run has ended: a step reported `Halted`. "A claim about a program's result should take `rs = Halted` (hence
`fcause = 0`) as part of what it proves." R72 (40_sequencer_and_decode.md). -/
def State.Ended (s : State) : Prop := s.rs = .halted

end Sys2Proof.Machine
end

