-- ==== Sys2Proof/Certificates/Slice0/Obligations.lean ====
section
/-! DEFINITION. Obligations: the statements about the machine, and the spec's own vocabulary they are written in. -/

namespace Sys2Proof.Spec

open Sys2Proof.Machine

/-- The ten opcodes. R44 (30_encoding.md). -/
def legalOpcodes : List Nat := [1, 2, 3, 4, 5, 6, 7, 8, 9, 99]

/-- The operand count `n` of an opcode. R44 (30_encoding.md). -/
def operandCount (op : Nat) : Nat :=
  if op ∈ [1, 2, 7, 8] then 3 else if op ∈ [5, 6] then 2 else if op ∈ [3, 4, 9] then 1 else 0

/-- The numbers made of `n` mode digits, each 0, 1 or 2. R48 (30_encoding.md). -/
def modeNumbers : Nat → List Nat
  | 0 => [0]
  | n + 1 => [0, 1, 2].flatMap fun d => (modeNumbers n).map fun m => d + 10 * m

/-- The legal instruction words: a legal opcode and its mode digits. R48 (30_encoding.md). -/
def legalWords : List Nat :=
  legalOpcodes.flatMap fun op => (modeNumbers (operandCount op)).map fun m => op + 100 * m

/-- The loop of R60's pseudocode over the operands `i`, `i + 1`, ... (`k` of them), every read a `MemRead`. -/
def pseudoOperands (m : Memory) (pc : Nat) (rb : Int) (modes : Nat) : Nat → Nat → Except Fatal (List Located)
  | 0, _ => .ok []
  | k + 1, i => do
    let v ← memRead m ((pc : Int) + i)
    let o ← match decimalDigit (i - 1) modes with
      | 0 => Except.ok (Located.pos v)
      | 1 => Except.ok (Located.imm v)
      | 2 => Except.ok (Located.rel (rb + v))
      | digit => Except.error ⟨.unknownMode, digit⟩
    let os ← pseudoOperands m pc rb modes k (i + 1)
    .ok (o :: os)

/-- R60's pseudocode `Decode(mem, pc, rb)`, line by line: the opcode, the tagged operands and `npc`. -/
def pseudoDecode (m : Memory) (pc : Nat) (rb : Int) : Except Fatal (Nat × List Located × Nat) := do
  let w ← memRead m pc
  if w < 0 then .error ⟨.unknownOpcode, w⟩
  else
    let op := w.toNat % 100
    let modes := w.toNat / 100
    if op ∉ legalOpcodes then .error ⟨.unknownOpcode, w⟩
    else
      let os ← pseudoOperands m pc rb modes (operandCount op) 1
      if modes / 10 ^ operandCount op ≠ 0 then .error ⟨.reservedModeDigits, w⟩
      else .ok (op, os, pc + 1 + operandCount op)

/-- The state a faulting step leaves: R106's four writes, and nothing else (R110). -/
def faultedFrom (s : State) (cause : FaultCause) (value : Int) : State :=
  { s with rs := .faulted, fcause := some cause, fpc := s.pc, fval := value }

/-- `mk a b dest` stores `f` of its operands' values, for every operand form, and completes, wherever the operands can be
read, the exact result is a word and the destination is a cell. -/
def StoresResult (mk : Operand → Operand → Operand → Instr) (f : Int → Int → Int) : Prop :=
  ∀ (a b dest : Operand) (s : State) (x y : Int) (addr : Int),
    s.mem.wf = true →
    readOperand s.mem (locate s.rb a) = .ok x →
    readOperand s.mem (locate s.rb b) = .ok y →
    Word.InRange s.params (f x y) →
    (locate s.rb dest).address = some addr →
    s.mem.Valid addr →
    ∃ t : State, exec (mk a b dest) s = .next t ∧
      memRead t.mem addr = .ok (f x y) ∧
      (∀ c, c ≠ addr → memRead t.mem c = memRead s.mem c) ∧
      t.mem.size = s.mem.size ∧
      t = { s with mem := t.mem, pc := s.pc + 4, rs := .running }

/-- The faults of `mk a b dest`, in R109's order: load of operand 1, load of operand 2, overflow, write to immediate,
store. `fval` of an overflow is stated only where `XLEN + 1` bits hold the exact result (R19, log entry 2). -/
def FaultsInOrder (mk : Operand → Operand → Operand → Instr) (f : Int → Int → Int) : Prop :=
  ∀ (a b dest : Operand) (s : State),
    (∀ addr, (locate s.rb a).address = some addr → ¬ s.mem.Valid addr →
      exec (mk a b dest) s = .next (faultedFrom s .memoryBounds addr)) ∧
    (∀ x addr, readOperand s.mem (locate s.rb a) = .ok x →
      (locate s.rb b).address = some addr → ¬ s.mem.Valid addr →
      exec (mk a b dest) s = .next (faultedFrom s .memoryBounds addr)) ∧
    (∀ x y, readOperand s.mem (locate s.rb a) = .ok x → readOperand s.mem (locate s.rb b) = .ok y →
      ¬ Word.InRange s.params (f x y) →
      ∃ value, exec (mk a b dest) s = .next (faultedFrom s .arithmeticOverflow value) ∧
        (Config.fvalMin s.params ≤ f x y → f x y ≤ Config.fvalMax s.params → value = f x y)) ∧
    (∀ x y v, readOperand s.mem (locate s.rb a) = .ok x → readOperand s.mem (locate s.rb b) = .ok y →
      Word.InRange s.params (f x y) → dest = .imm v →
      exec (mk a b dest) s = .next (faultedFrom s .writeToImmediate v)) ∧
    (∀ x y addr, readOperand s.mem (locate s.rb a) = .ok x → readOperand s.mem (locate s.rb b) = .ok y →
      Word.InRange s.params (f x y) → (locate s.rb dest).address = some addr → ¬ s.mem.Valid addr →
      exec (mk a b dest) s = .next (faultedFrom s .memoryBounds addr))

/-- The faults of a two-operand jump, in R109's order; `taken` is its condition. -/
def JumpFaultsInOrder (mk : Operand → Operand → Instr) (taken : Int → Prop) : Prop :=
  ∀ (a b : Operand) (s : State),
    (∀ addr, (locate s.rb a).address = some addr → ¬ s.mem.Valid addr →
      exec (mk a b) s = .next (faultedFrom s .memoryBounds addr)) ∧
    (∀ x addr, readOperand s.mem (locate s.rb a) = .ok x →
      (locate s.rb b).address = some addr → ¬ s.mem.Valid addr →
      exec (mk a b) s = .next (faultedFrom s .memoryBounds addr)) ∧
    (∀ x y, readOperand s.mem (locate s.rb a) = .ok x → readOperand s.mem (locate s.rb b) = .ok y →
      taken x → y < 0 →
      exec (mk a b) s = .next (faultedFrom s .pcRange y))

/-- A host's history of one core: the words fed to it (`INPUT0` and every push), the words that executed INs stored (read
back from the cell each stored to), the words that executed OUTs read, and the words the host popped. R78 (42_io.md). -/
inductive QueueHistory (input0 : List Int) :
    (fed received emitted drained : List Int) → State → Prop where
  | reset (image : List Int) (t : State) (reply : Reply) (s : State)
      (h : transact (.reset image input0) s = .next (t, reply)) : QueueHistory input0 input0 [] [] [] t
  | push {fed received emitted drained : List Int} {s t : State} {reply : Reply} (v : Int)
      (hs : QueueHistory input0 fed received emitted drained s)
      (h : transact (.pushInput v) s = .next (t, reply)) :
      QueueHistory input0 (fed ++ [v]) received emitted drained t
  | pop {fed received emitted drained : List Int} {s t : State} (v : Int)
      (hs : QueueHistory input0 fed received emitted drained s)
      (h : transact .popOutput s = .next (t, .word v)) :
      QueueHistory input0 fed received emitted (drained ++ [v]) t
  | popEmpty {fed received emitted drained : List Int} {s t : State}
      (hs : QueueHistory input0 fed received emitted drained s)
      (h : transact .popOutput s = .next (t, .empty)) :
      QueueHistory input0 fed received emitted drained t
  | memWrite {fed received emitted drained : List Int} {s t : State} {reply : Reply} (a : Int) (v : Int)
      (hs : QueueHistory input0 fed received emitted drained s)
      (h : transact (.memWrite a v) s = .next (t, reply)) :
      QueueHistory input0 fed received emitted drained t
  | executedIn {fed received emitted drained : List Int} {s t : State} (dest : Operand) (addr : Int) (v : Int)
      (hs : QueueHistory input0 fed received emitted drained s)
      (hi : fetchInstr s.mem s.pc = .ok (.inp dest)) (he : s.rs.enabled = true)
      (h : step s = .next t) (hr : t.rs = .running)
      (ha : (locate s.rb dest).address = some addr) (hv : memRead t.mem addr = .ok v) :
      QueueHistory input0 fed (received ++ [v]) emitted drained t
  | executedOut {fed received emitted drained : List Int} {s t : State} (a : Operand) (v : Int)
      (hs : QueueHistory input0 fed received emitted drained s)
      (hi : fetchInstr s.mem s.pc = .ok (.out a)) (he : s.rs.enabled = true)
      (h : step s = .next t) (hr : t.rs = .running)
      (hv : readOperand s.mem (locate s.rb a) = .ok v) :
      QueueHistory input0 fed received (emitted ++ [v]) drained t
  | otherStep {fed received emitted drained : List Int} {s t : State}
      (hs : QueueHistory input0 fed received emitted drained s)
      (h : step s = .next t)
      (hn : s.rs.enabled = true → t.rs = .running → ∀ o : Operand,
        fetchInstr s.mem s.pc ≠ .ok (.inp o) ∧ fetchInstr s.mem s.pc ≠ .ok (.out o)) :
      QueueHistory input0 fed received emitted drained t

end Sys2Proof.Spec

open Sys2Proof Sys2Proof.Machine Sys2Proof.Spec

/-! ### Encoding -/

/-- Decoding the encoding of an instruction gives it back, whatever follows it: every instruction, every mode, every
operand word. 30_encoding.md R38, R41 to R45, R52. -/
def Obligations.EncodedInstructionDecodesToItself : Prop :=
  ∀ (i : Instr) (rest : List Int), decode (encode i ++ rest) = .ok (i, rest)

/-- Words that decode are the encoding of the instruction they decode to: each instruction has one encoding.
30_encoding.md R48, R50. -/
def Obligations.DecodedWordsAreTheEncoding : Prop :=
  ∀ (ws : List Int) (i : Instr) (rest : List Int), decode ws = .ok (i, rest) → ws = encode i ++ rest

/-- The spec's decoding examples (95_test_vectors.md section 2.7). -/
def Obligations.SampleWordsDecodeAsTheSpecSays : Prop :=
  ∀ v1 v2 v3 : Int,
    decode [1002, v1, v2, v3] = .ok (.mul (.pos v1) (.imm v2) (.pos v3), []) ∧
    decode [1101, v1, v2, v3] = .ok (.add (.imm v1) (.imm v2) (.pos v3), []) ∧
    decode [21107, v1, v2, v3] = .ok (.lt (.imm v1) (.imm v2) (.rel v3), []) ∧
    decode [204, v1] = .ok (.out (.rel v1), []) ∧
    decode [2105, v1, v2] = .ok (.jnz (.imm v1) (.rel v2), []) ∧
    decode [109, v1] = .ok (.arb (.imm v1), []) ∧
    decode [22208, v1, v2, v3] = .ok (.eq (.rel v1) (.rel v2) (.rel v3), []) ∧
    decode [7, v1, v2, v3] = .ok (.lt (.pos v1) (.pos v2) (.pos v3), [])

/-- R50: the complete classification of an instruction word, in the decoder's order, its operand words being there. -/
def Obligations.DecoderClassifiesEveryWord : Prop :=
  ∀ w v1 v2 v3 : Int,
    let n := w.toNat
    let op := n % 100
    let k := operandCount op
    (w < 0 → decode [w, v1, v2, v3] = .error (.unknownOpcode w)) ∧
    (0 ≤ w → op ∉ legalOpcodes → decode [w, v1, v2, v3] = .error (.unknownOpcode w)) ∧
    (0 ≤ w → op ∈ legalOpcodes → ∀ i, 1 ≤ i → i ≤ k →
      (∀ j, 1 ≤ j → j < i → decimalDigit (j + 1) n ≤ 2) → 2 < decimalDigit (i + 1) n →
      decode [w, v1, v2, v3] = .error (.unknownMode (decimalDigit (i + 1) n))) ∧
    (0 ≤ w → op ∈ legalOpcodes → (∀ j, 1 ≤ j → j ≤ k → decimalDigit (j + 1) n ≤ 2) →
      n / 10 ^ (2 + k) ≠ 0 → decode [w, v1, v2, v3] = .error (.reservedModeDigits w)) ∧
    (0 ≤ w → op ∈ legalOpcodes → (∀ j, 1 ≤ j → j ≤ k → decimalDigit (j + 1) n ≤ 2) →
      n / 10 ^ (2 + k) = 0 → n ∈ legalWords ∧
        ∃ i, decode [w, v1, v2, v3] = .ok (i, [v1, v2, v3].drop k) ∧
          encode i = w :: [v1, v2, v3].take k ∧ i.opcode = op)

/-- R48: the legal instruction words are exactly 136, the largest is 22208, and other digits above the last operand's mode
digit are refused as reserved. -/
def Obligations.LegalInstructionWordsAreExactly136 : Prop :=
  legalWords.length = 136 ∧ legalWords.Nodup ∧ 22208 ∈ legalWords ∧ (∀ n ∈ legalWords, n ≤ 22208) ∧
  (∀ w v1 v2 v3 : Int,
    (∃ i rest, decode [w, v1, v2, v3] = .ok (i, rest)) ↔ ∃ n ∈ legalWords, w = (n : Int)) ∧
  (∀ w v1 v2 v3 : Int, ∀ op ∈ legalOpcodes, ∀ m ∈ modeNumbers (operandCount op), ∀ e : Nat, e ≠ 0 →
    w = ((op + 100 * m + 10 ^ (2 + operandCount op) * e : Nat) : Int) →
    decode [w, v1, v2, v3] = .error (.reservedModeDigits w))

/-- R60, R65: the decoder over the cells from `pc` on is R60's pseudocode, with its order of checks, the fault each one
raises, and its `npc`. -/
def Obligations.FetchedInstructionFollowsTheDecodePseudocode : Prop :=
  ∀ (m : Memory) (pc : Nat) (rb : Int),
    (∀ f, pseudoDecode m pc rb = .error f → fetchInstr m pc = .error f) ∧
    (∀ op os npc, pseudoDecode m pc rb = .ok (op, os, npc) →
      npc ≤ m.size ∧ ∃ i, fetchInstr m pc = .ok i ∧ i.opcode = op ∧ i.operands.map (locate rb) = os ∧
        pc + i.length = npc)

/-! ### Memory and operands -/

/-- R27, R29, R30 (20_memory.md): an access outside `[0, MEM_SIZE)` raises `MemoryBounds` with its address; inside, it is
performed. -/
def Obligations.AccessOutsideMemoryRaisesMemoryBounds : Prop :=
  ∀ (m : Memory) (a : Int) (v : Int),
    ((a < 0 ∨ (m.size : Int) ≤ a) →
      memRead m a = .error ⟨.memoryBounds, a⟩ ∧ memWrite m a v = .error ⟨.memoryBounds, a⟩) ∧
    (0 ≤ a → a < m.size → (∃ w, memRead m a = .ok w) ∧ ∃ m', memWrite m a v = .ok m')

/-- Memories in canonical form that hold the same cells are equal data (log entry 4, the model's choice). -/
def Obligations.MemoriesWithTheSameCellsAreEqual : Prop :=
  ∀ m1 m2 : Memory, m1.wf = true → m2.wf = true → m1.size = m2.size →
    (∀ a : Int, memRead m1 a = memRead m2 a) → m1 = m2

/-- R116, R117 (70_reset_and_hazards.md): what `RESET` loads and what it clears, from any state; and the first step of an
empty image. -/
def Obligations.ResetLoadsTheImageAndClearsTheRest : Prop :=
  (∀ (image input0 : List Int) (s : State), (image.length : Int) ≤ Config.WMAX s.params →
    AllWords s.params image → AllWords s.params input0 →
    ∃ t, transact (.reset image input0) s = .next (t, .nothing) ∧
      t.mem.size = image.length ∧
      (∀ (k : Nat) (v : Int), image[k]? = some v → memRead t.mem k = .ok v) ∧
      t.inq = input0 ∧ t.pc = 0 ∧ t.rb = 0 ∧ t.outq = [] ∧ t.rs = .running ∧
      causeCode t.fcause = 0 ∧ t.fpc = 0 ∧ t.fval = 0) ∧
  (∀ (p : Config.Params) (input0 : List Int),
    step (resetWith p [] input0) = .next (faultedFrom (resetWith p [] input0) .memoryBounds 0))

/-- R66 (40_sequencer_and_decode.md): a read operand's value, by addressing mode, and the only fault a load raises. -/
def Obligations.ReadOperandGivesTheValueOfItsMode : Prop :=
  ∀ (m : Memory) (rb v : Int),
    readOperand m (locate rb (.imm v)) = .ok v ∧
    readOperand m (locate rb (.pos v)) = memRead m v ∧
    readOperand m (locate rb (.rel v)) = memRead m (rb + v) ∧
    (∀ o f, readOperand m o = .error f → f.cause = .memoryBounds)

/-- R67 (40_sequencer_and_decode.md): a store, by addressing mode: through an immediate it raises, else it is one
`MemWrite`. -/
def Obligations.StoreOperandWritesOrRaisesByMode : Prop :=
  ∀ (m : Memory) (rb v x : Int),
    storeOperand m (locate rb (.imm v)) x = .error ⟨.writeToImmediate, v⟩ ∧
    storeOperand m (locate rb (.pos v)) x = memWrite m v x ∧
    storeOperand m (locate rb (.rel v)) x = memWrite m (rb + v) x

/-- R64 (40_sequencer_and_decode.md): a relative address is the exact sum; where the sum is no word, the access raises
`MemoryBounds` with the unreduced sum (left in `fval`), and no instruction that holds it completes, but for an IN that
waits. -/
def Obligations.RelativeSumOutsideWordsNeverCompletes : Prop :=
  ∀ (s : State) (v : Int), (locate s.rb (.rel v)).address = some (s.rb + v) ∧
    (Word.InRange s.params s.rb → Word.InRange s.params v →
      2 * Config.WMIN s.params ≤ s.rb + v ∧ s.rb + v ≤ 2 * Config.WMAX s.params) ∧
    ((s.mem.size : Int) ≤ Config.WMAX s.params → ¬ Word.InRange s.params (s.rb + v) →
      readOperand s.mem (locate s.rb (.rel v)) = .error ⟨.memoryBounds, s.rb + v⟩ ∧
      (∀ x, storeOperand s.mem (locate s.rb (.rel v)) x = .error ⟨.memoryBounds, s.rb + v⟩) ∧
      exec (.out (.rel v)) s = .next (faultedFrom s .memoryBounds (s.rb + v)) ∧
      (∀ x rest, s.inq = x :: rest →
        exec (.inp (.rel v)) s = .next (faultedFrom s .memoryBounds (s.rb + v))) ∧
      (∀ i : Instr, Operand.rel v ∈ i.operands → ∃ t, exec i s = .next t ∧
        (t.rs = .faulted ∨ (t.rs = .needsInput ∧ s.inq = [] ∧ ∃ dest, i = .inp dest))))

/-! ### The step -/

/-- R54, R56 (40_sequencer_and_decode.md): an enabled step is the executor on the instruction decoded at `pc`. What the
step adds around it (commit, report, the `NeedsInput` test) is part of `exec`. -/
def Obligations.StepRunsTheDecodedInstruction : Prop :=
  ∀ (s : State) (i : Instr), s.rs.enabled = true → fetchInstr s.mem s.pc = .ok i → step s = exec i s

/-- The same from memory's words: where the cells from `pc` on hold the encoding of `i`, an enabled step runs `i`. -/
def Obligations.StepRunsTheInstructionWhoseWordsStandAtPc : Prop :=
  ∀ (s : State) (i : Instr), s.rs.enabled = true →
    (∀ (k : Nat) (v : Int), (encode i)[k]? = some v → memRead s.mem ((s.pc : Int) + k) = .ok v) →
    step s = exec i s

/-- R55 (40_sequencer_and_decode.md): in `Halted` and `Faulted` any number of `STEP`s changes nothing, and each reports
the unchanged run-state. -/
def Obligations.StepsInTerminalStatesChangeNothing : Prop :=
  ∀ s : State, (s.rs = .halted ∨ s.rs = .faulted) →
    transact .step s = .next (s, .runState s.rs) ∧ ∀ k, runSteps k s = .next s

/-- R54, R56: the machine is total. Every step, and every instruction in every state, answers a next state. -/
def Obligations.EveryStepAnswersNext : Prop :=
  (∀ s : State, ∃ t, step s = .next t) ∧ (∀ (i : Instr) (s : State), ∃ t, exec i s = .next t)

/-- R106, R110 (60_exceptions.md): a step that faults writes `rs`, `fcause`, `fpc` (the `pc` at its start) and `fval`, and
leaves everything else as it was; a decode fault records its own cause and value. -/
def Obligations.FaultsArePreciseAndRecorded : Prop :=
  ∀ s : State, s.rs.enabled = true →
    (∀ t, step s = .next t → t.rs = .faulted → ∃ cause, t = faultedFrom s cause t.fval) ∧
    (∀ f, fetchInstr s.mem s.pc = .error f → step s = .next (faultedFrom s f.cause f.value))

/-- R111 (60_exceptions.md): no transaction but `RESET` leaves `Faulted` or changes the fault registers after a fault;
before one they stay as they are, so they are written at most once between resets; and `RESET` clears them. -/
def Obligations.OnlyResetLeavesFaulted : Prop :=
  (∀ (tx : Transaction) (s t : State) (reply : Reply), s.rs = .faulted → transact tx s = .next (t, reply) →
    (∃ image input0, tx = .reset image input0) ∨
    (t.rs = .faulted ∧ t.fcause = s.fcause ∧ t.fpc = s.fpc ∧ t.fval = s.fval)) ∧
  (∀ (tx : Transaction) (s t : State) (reply : Reply), t.rs ≠ .faulted → transact tx s = .next (t, reply) →
    (∃ image input0, tx = .reset image input0) ∨ (t.fcause = s.fcause ∧ t.fpc = s.fpc ∧ t.fval = s.fval)) ∧
  (∀ (image input0 : List Int) (s t : State) (reply : Reply), transact (.reset image input0) s = .next (t, reply) →
    t.rs = .running ∧ causeCode t.fcause = 0 ∧ t.fpc = 0 ∧ t.fval = 0)

/-- R88 (46_halt.md): a step that comes to `Halted` executed a HLT. -/
def Obligations.OnlyHltReachesHalted : Prop :=
  ∀ s t : State, s.rs.enabled = true → step s = .next t → t.rs = .halted →
    fetchInstr s.mem s.pc = .ok .hlt ∧ t = { s with pc := s.pc + 1, rs := .halted }

/-- R59 (40_sequencer_and_decode.md): the run-state after each transaction. -/
def Obligations.RunStateFollowsTheTransitionTable : Prop :=
  ∀ (tx : Transaction) (s t : State) (reply : Reply), transact tx s = .next (t, reply) →
    (∀ image input0, tx = .reset image input0 → t = resetWith s.params image input0 ∧ t.rs = .running) ∧
    (tx = .step → s.rs.enabled = false → t = s) ∧
    (tx = .step → s.rs.enabled = true →
      (∀ f, fetchInstr s.mem s.pc = .error f → t.rs = .faulted) ∧
      (∀ dest, fetchInstr s.mem s.pc = .ok (.inp dest) → s.inq = [] → t = { s with rs := .needsInput }) ∧
      (fetchInstr s.mem s.pc = .ok .hlt → t = { s with pc := s.pc + 1, rs := .halted }) ∧
      (∀ i, fetchInstr s.mem s.pc = .ok i → i ≠ .hlt → (s.inq = [] → ∀ dest, i ≠ .inp dest) →
        t.rs = .running ∨ t.rs = .faulted)) ∧
    ((∀ image input0, tx ≠ .reset image input0) → tx ≠ .step → t.rs = s.rs)

/-- R58 (40_sequencer_and_decode.md): an IN with an empty queue reports `NeedsInput` and changes nothing else, however
often it is stepped; decode faults come first; with a word in the queue a bad write operand faults. -/
def Obligations.EmptyInputQueuePausesWithoutChange : Prop :=
  (∀ (s : State) (dest : Operand), s.rs.enabled = true → fetchInstr s.mem s.pc = .ok (.inp dest) → s.inq = [] →
    ∀ k, runSteps (k + 1) s = .next { s with rs := .needsInput }) ∧
  (∀ (s : State) (f : Fatal), s.rs.enabled = true → fetchInstr s.mem s.pc = .error f → s.inq = [] →
    ∃ t, step s = .next t ∧ t.rs = .faulted) ∧
  (∀ (s : State) (dest : Operand) (x : Int) (rest : List Int) (f : Fatal), s.rs.enabled = true →
    fetchInstr s.mem s.pc = .ok (.inp dest) → s.inq = x :: rest → storeOperand s.mem (locate s.rb dest) x = .error f →
    ∃ t, step s = .next t ∧ t.rs = .faulted)

/-- R58, R92: a core paused at an IN proceeds at the next `STEP` after a push, and the word pushed is the word stored. -/
def Obligations.PushedInputResumesThePausedCore : Prop :=
  ∀ (s : State) (dest : Operand) (addr : Int) (v : Int), s.mem.wf = true → Word.InRange s.params v →
    s.rs = .needsInput → s.inq = [] →
    fetchInstr s.mem s.pc = .ok (.inp dest) → (locate s.rb dest).address = some addr → s.mem.Valid addr →
    ∃ s' t, transact (.pushInput v) s = .next (s', .nothing) ∧ s'.rs = .needsInput ∧
      transact .step s' = .next (t, .runState .running) ∧ memRead t.mem addr = .ok v ∧ t.inq = [] ∧ t.pc = s.pc + 2

/-- R12 (10_state.md): how `pc` advances over an enabled step; a `pc` beyond memory is fatal to fetch from. -/
def Obligations.PcAdvancesOverTheInstruction : Prop :=
  ∀ (s t : State), s.rs.enabled = true → step s = .next t →
    (s.mem.size ≤ s.pc → t = faultedFrom s .memoryBounds s.pc) ∧
    ((t.rs = .needsInput ∨ t.rs = .faulted) → t.pc = s.pc) ∧
    (∀ i, fetchInstr s.mem s.pc = .ok i → (t.rs = .running ∨ t.rs = .halted) →
      s.pc + i.length ≤ s.mem.size ∧
      ((∀ a b, i ≠ .jnz a b ∧ i ≠ .jz a b) → t.pc = s.pc + i.length) ∧
      (∀ a b, (i = .jnz a b ∨ i = .jz a b) → ∃ x y, readOperand s.mem (locate s.rb a) = .ok x ∧
        readOperand s.mem (locate s.rb b) = .ok y ∧
        ((i = .jnz a b ∧ x ≠ 0 ∨ i = .jz a b ∧ x = 0) → (t.pc : Int) = y) ∧
        ((i = .jnz a b ∧ x = 0 ∨ i = .jz a b ∧ x ≠ 0) → t.pc = s.pc + 3)))

/-! ### Results -/

/-- R73 (41_arithmetic.md): ADD stores the exact sum. -/
def Obligations.AddStoresTheSum : Prop := StoresResult .add (fun x y => x + y)

/-- R74 (41_arithmetic.md): MUL stores the exact product. -/
def Obligations.MulStoresTheProduct : Prop := StoresResult .mul (fun x y => x * y)

/-- R82 (44_compare.md): LT stores 1 where operand 1 is less, as signed words, else 0. -/
def Obligations.LtStoresTheComparison : Prop := StoresResult .lt (fun x y => if x < y then 1 else 0)

/-- R83 (44_compare.md): EQ stores 1 where the operands are equal, else 0. -/
def Obligations.EqStoresTheComparison : Prop := StoresResult .eq (fun x y => if x = y then 1 else 0)

/-- R84 (44_compare.md): the table of LT and EQ. -/
def Obligations.ComparisonsStoreExactlyOneOrZero : Prop :=
  ∀ (a b dest : Operand) (s : State) (x y : Int) (addr : Int), s.mem.wf = true →
    readOperand s.mem (locate s.rb a) = .ok x → readOperand s.mem (locate s.rb b) = .ok y →
    (locate s.rb dest).address = some addr → s.mem.Valid addr →
    ∃ t u, exec (.lt a b dest) s = .next t ∧ exec (.eq a b dest) s = .next u ∧
      (x < y → memRead t.mem addr = .ok 1 ∧ memRead u.mem addr = .ok 0) ∧
      (x = y → memRead t.mem addr = .ok 0 ∧ memRead u.mem addr = .ok 1) ∧
      (y < x → memRead t.mem addr = .ok 0 ∧ memRead u.mem addr = .ok 0)

/-- R109 (60_exceptions.md), with R73, R74, R82, R83: what ADD, MUL, LT and EQ fault with, in order. -/
def Obligations.StoringInstructionsFaultInOrder : Prop :=
  FaultsInOrder .add (fun x y => x + y) ∧ FaultsInOrder .mul (fun x y => x * y) ∧
  FaultsInOrder .lt (fun x y => if x < y then 1 else 0) ∧ FaultsInOrder .eq (fun x y => if x = y then 1 else 0)

/-- R76 (42_io.md): IN removes the head of `inq` and stores it unchanged. -/
def Obligations.InStoresTheHeadOfTheInputQueue : Prop :=
  ∀ (dest : Operand) (s : State) (x : Int) (rest : List Int) (addr : Int), s.mem.wf = true → s.inq = x :: rest →
    (locate s.rb dest).address = some addr → s.mem.Valid addr →
    ∃ t, exec (.inp dest) s = .next t ∧ memRead t.mem addr = .ok x ∧
      (∀ c, c ≠ addr → memRead t.mem c = memRead s.mem c) ∧ t.mem.size = s.mem.size ∧
      t = { s with mem := t.mem, inq := rest, pc := s.pc + 2, rs := .running }

/-- R76 (42_io.md): with a word to take, IN faults on an immediate or out-of-bounds write operand, and keeps the queue. -/
def Obligations.InFaultsKeepTheInputQueue : Prop :=
  ∀ (dest : Operand) (s : State), s.inq ≠ [] →
    (∀ v, dest = .imm v → exec (.inp dest) s = .next (faultedFrom s .writeToImmediate v)) ∧
    (∀ addr, (locate s.rb dest).address = some addr → ¬ s.mem.Valid addr →
      exec (.inp dest) s = .next (faultedFrom s .memoryBounds addr))

/-- R77 (42_io.md): OUT appends its operand's value to `outq`, or faults on the load. -/
def Obligations.OutAppendsTheOperandToTheOutputQueue : Prop :=
  ∀ (a : Operand) (s : State),
    (∀ x, readOperand s.mem (locate s.rb a) = .ok x →
      exec (.out a) s = .next { s with outq := s.outq ++ [x], pc := s.pc + 2, rs := .running }) ∧
    (∀ addr, (locate s.rb a).address = some addr → ¬ s.mem.Valid addr →
      exec (.out a) s = .next (faultedFrom s .memoryBounds addr))

/-- R79 (43_jump.md): JNZ jumps to its second operand's value where the first is not 0, else falls through. -/
def Obligations.JnzJumpsWhereTheOperandIsNotZero : Prop :=
  ∀ (a b : Operand) (s : State) (x y : Int), readOperand s.mem (locate s.rb a) = .ok x →
    readOperand s.mem (locate s.rb b) = .ok y →
    (x ≠ 0 → 0 ≤ y → exec (.jnz a b) s = .next { s with pc := y.toNat, rs := .running }) ∧
    (x = 0 → exec (.jnz a b) s = .next { s with pc := s.pc + 3, rs := .running })

/-- R80 (43_jump.md): JZ jumps to its second operand's value where the first is 0, else falls through. -/
def Obligations.JzJumpsWhereTheOperandIsZero : Prop :=
  ∀ (a b : Operand) (s : State) (x y : Int), readOperand s.mem (locate s.rb a) = .ok x →
    readOperand s.mem (locate s.rb b) = .ok y →
    (x = 0 → 0 ≤ y → exec (.jz a b) s = .next { s with pc := y.toNat, rs := .running }) ∧
    (x ≠ 0 → exec (.jz a b) s = .next { s with pc := s.pc + 3, rs := .running })

/-- R81 (43_jump.md), R68 (c), R108: the faults of the jumps, the target's load even when the jump is not taken. -/
def Obligations.JumpsFaultInOrder : Prop :=
  JumpFaultsInOrder .jnz (fun x => x ≠ 0) ∧ JumpFaultsInOrder .jz (fun x => x = 0)

/-- R81 (c) (43_jump.md): a taken jump beyond memory completes, and the next step faults at the fetch. -/
def Obligations.JumpBeyondMemoryFaultsAtTheNextFetch : Prop :=
  ∀ (s : State) (a b : Operand) (x y : Int), s.rs.enabled = true →
    (fetchInstr s.mem s.pc = .ok (.jnz a b) ∧ x ≠ 0 ∨ fetchInstr s.mem s.pc = .ok (.jz a b) ∧ x = 0) →
    readOperand s.mem (locate s.rb a) = .ok x → readOperand s.mem (locate s.rb b) = .ok y →
    (s.mem.size : Int) ≤ y →
    ∃ t, step s = .next t ∧ t.rs = .running ∧ (t.pc : Int) = y ∧
      step t = .next (faultedFrom t .memoryBounds y)

/-- R85 (45_base.md): ARB adds its operand to `rb`; `ArithmeticOverflow`, with the exact sum, where that is no word. -/
def Obligations.ArbAddsTheOperandToTheBase : Prop :=
  ∀ (a : Operand) (s : State),
    (∀ x, readOperand s.mem (locate s.rb a) = .ok x → Word.InRange s.params (s.rb + x) →
      exec (.arb a) s = .next { s with rb := s.rb + x, pc := s.pc + 2, rs := .running }) ∧
    (∀ x, readOperand s.mem (locate s.rb a) = .ok x → Word.InRange s.params s.rb → Word.InRange s.params x → ¬ Word.InRange s.params (s.rb + x) →
      exec (.arb a) s = .next (faultedFrom s .arithmeticOverflow (s.rb + x))) ∧
    (∀ addr, (locate s.rb a).address = some addr → ¬ s.mem.Valid addr →
      exec (.arb a) s = .next (faultedFrom s .memoryBounds addr))

/-- R87 (46_halt.md): HLT commits its one cell and reports `Halted`; nothing else changes. -/
def Obligations.HltCommitsAndHalts : Prop :=
  ∀ s : State, exec .hlt s = .next { s with pc := s.pc + 1, rs := .halted }

/-- R37 (20_memory.md): a store is seen by the very next fetch, as an instruction word or as an operand word. Clause 1: any
instruction that completes and stores the word `x` in the cell `addr`: if the cells after it, `addr` among them or not, then
hold the encoding of any instruction `j` (the cell `addr` the word `x`, every other one what it held), the next step runs
`j`. Clause 2: the same after a host's `MEM_WRITE`. Clause 3, the spec's program P4: an ADD that stores 99 in the cell after
its own is followed by a halt. -/
def Obligations.StoredWordIsTheNextInstruction : Prop :=
  (∀ (s t : State) (i : Instr) (dest : Operand) (addr : Int), s.mem.wf = true → s.rs.enabled = true →
    fetchInstr s.mem s.pc = .ok i → i.dest = some dest → (locate s.rb dest).address = some addr →
    step s = .next t → t.rs = .running →
    t.pc = s.pc + i.length ∧ ∃ x, memRead t.mem addr = .ok x ∧
      ∀ j : Instr, (∀ (k : Nat) (v : Int), (encode j)[k]? = some v →
          if ((s.pc + i.length + k : Nat) : Int) = addr then v = x
          else memRead s.mem ((s.pc + i.length + k : Nat) : Int) = .ok v) →
        step t = exec j t) ∧
  (∀ (s t : State) (a : Int) (x : Int) (reply : Reply) (j : Instr), s.mem.wf = true → s.rs.enabled = true →
    transact (.memWrite a x) s = .next (t, reply) →
    (∀ (k : Nat) (v : Int), (encode j)[k]? = some v →
      if ((s.pc + k : Nat) : Int) = a then v = x else memRead s.mem ((s.pc + k : Nat) : Int) = .ok v) →
    step t = exec j t) ∧
  (∀ (s : State) (a b dest : Operand) (x y : Int), s.mem.wf = true → s.rs.enabled = true →
    fetchInstr s.mem s.pc = .ok (.add a b dest) →
    readOperand s.mem (locate s.rb a) = .ok x → readOperand s.mem (locate s.rb b) = .ok y → x + y = 99 →
    (locate s.rb dest).address = some ((s.pc : Int) + 4) → s.mem.Valid ((s.pc : Int) + 4) →
    ∃ t, runSteps 2 s = .next t ∧ t.rs = .halted ∧ t.pc = s.pc + 5)

/-! ### Frames and whole-machine rules -/

/-- R24, R30: ADD, MUL, IN, LT and EQ change no cell but the one their write operand names (its address computed as the
executor does); `rb` and `outq` stay, `inq` stays but for IN's head, and the fault registers stay but at a fault. -/
def Obligations.StoringInstructionsChangeOnlyTheirCell : Prop :=
  ∀ (i : Instr) (dest : Operand) (s t : State), i.dest = some dest → exec i s = .next t →
    (∀ addr, (locate s.rb dest).address = some addr → ∀ c, c ≠ addr → memRead t.mem c = memRead s.mem c) ∧
    ((locate s.rb dest).address = none → t.mem = s.mem) ∧
    t.mem.size = s.mem.size ∧ t.params = s.params ∧ t.rb = s.rb ∧ t.outq = s.outq ∧
    ((∀ d, i ≠ .inp d) → t.inq = s.inq) ∧ (t.inq = s.inq ∨ ∃ v, s.inq = v :: t.inq) ∧
    (t.rs ≠ .faulted → t.fcause = s.fcause ∧ t.fpc = s.fpc ∧ t.fval = s.fval)

/-- R24: OUT, JNZ, JZ, ARB and HLT store nothing; they leave all of memory and `inq`; `outq` is only lengthened, by OUT;
`rb` is only written by ARB; the fault registers stay but at a fault. -/
def Obligations.OtherInstructionsLeaveMemoryUnchanged : Prop :=
  ∀ (i : Instr) (s t : State), i.dest = none → exec i s = .next t →
    (∀ c, memRead t.mem c = memRead s.mem c) ∧ t.mem = s.mem ∧ t.params = s.params ∧ t.inq = s.inq ∧
    ((∀ a, i ≠ .out a) → t.outq = s.outq) ∧ (t.outq = s.outq ∨ ∃ v, t.outq = s.outq ++ [v]) ∧
    ((∀ a, i ≠ .arb a) → t.rb = s.rb) ∧
    (t.rs ≠ .faulted → t.fcause = s.fcause ∧ t.fpc = s.fpc ∧ t.fval = s.fval)

/-- R86 (45_base.md): `rb` is changed by `RESET` and by an ARB that completes, and by nothing else, a fault included; with
the base at `B`, offset `K` names cell `B + K`, which reads back positionally; and a first ARB of `B` after reset, in every
operand form, sets it to `B`. -/
def Obligations.OnlyArbAndResetChangeTheBase : Prop :=
  (∀ (tx : Transaction) (s t : State) (reply : Reply), transact tx s = .next (t, reply) → t.rb ≠ s.rb →
    (∃ image input0, tx = .reset image input0) ∨
    (tx = .step ∧ s.rs.enabled = true ∧ t.rs = .running ∧ ∃ a x, fetchInstr s.mem s.pc = .ok (.arb a) ∧
      readOperand s.mem (locate s.rb a) = .ok x ∧ t.rb = s.rb + x)) ∧
  (∀ (m : Memory) (rb k x : Int), readOperand m (locate rb (.rel k)) = memRead m (rb + k) ∧
    storeOperand m (locate rb (.rel k)) x = memWrite m (rb + k) x ∧
    ∀ m', m.wf = true → storeOperand m (locate rb (.rel k)) x = .ok m' →
      readOperand m' (locate rb (.pos (rb + k))) = .ok x) ∧
  (∀ (s : State) (a : Operand) (b : Int), s.rb = 0 → readOperand s.mem (locate s.rb a) = .ok b →
    Word.InRange s.params b → ∃ t, exec (.arb a) s = .next t ∧ t.rb = b ∧ t.rs = .running)

/-- R28 (20_memory.md): memory does not grow. No transaction but `RESET` changes `MEM_SIZE`, and a store beyond the end
raises. -/
def Obligations.MemorySizeIsFixedFromReset : Prop :=
  (∀ (tx : Transaction) (s t : State) (reply : Reply), transact tx s = .next (t, reply) →
    (∀ image input0, tx ≠ .reset image input0) → t.mem.size = s.mem.size) ∧
  (∀ (m : Memory) (a : Int) (v : Int), (m.size : Int) ≤ a → memWrite m a v = .error ⟨.memoryBounds, a⟩)

/-- R71 (40_sequencer_and_decode.md): a step depends on `mem`, `pc`, `rb` and `inq` alone; `outq` and the fault registers
influence no step, and `rs` only whether it is enabled. Two runs of one width that agree on the former cannot tell the latter apart. -/
def Obligations.StepDependsOnlyOnMemoryPcBaseAndInput : Prop :=
  ∀ s1 s2 t1 t2 : State, s1.params = s2.params → s1.mem = s2.mem → s1.pc = s2.pc → s1.rb = s2.rb → s1.inq = s2.inq →
    s1.rs.enabled = true → s2.rs.enabled = true → step s1 = .next t1 → step s2 = .next t2 →
    t1.mem = t2.mem ∧ t1.pc = t2.pc ∧ t1.rb = t2.rb ∧ t1.inq = t2.inq ∧ t1.rs = t2.rs ∧
    (∃ q, t1.outq = s1.outq ++ q ∧ t2.outq = s2.outq ++ q) ∧
    (t1.rs = .faulted → t1.fcause = t2.fcause ∧ t1.fpc = t2.fpc ∧ t1.fval = t2.fval) ∧
    (t1.rs ≠ .faulted → (t1.fcause = s1.fcause ∧ t1.fpc = s1.fpc ∧ t1.fval = s1.fval) ∧
      (t2.fcause = s2.fcause ∧ t2.fpc = s2.fpc ∧ t2.fval = s2.fval))

/-- R78 (42_io.md): both queues are first-in first-out along every history of one core: what was fed is what was received
followed by what still waits, and what was emitted is what was drained followed by what still waits. -/
def Obligations.QueuesAreFirstInFirstOut : Prop :=
  ∀ (input0 fed received emitted drained : List Int) (s : State),
    QueueHistory input0 fed received emitted drained s → fed = received ++ s.inq ∧ emitted = drained ++ s.outq

/-! ### Host transactions -/

/-- R92 (47_host_interface.md): `PUSH_INPUT` of a word appends it to `inq` and changes nothing else, and "a value outside
`Word` cannot be pushed"; `READ_INPUT` returns `inq`. -/
def Obligations.PushInputAppendsAndChangesNothingElse : Prop :=
  ∀ (s : State) (v : Int),
    (Word.InRange s.params v → transact (.pushInput v) s = .next ({ s with inq := s.inq ++ [v] }, .nothing)) ∧
    (¬ Word.InRange s.params v → transact (.pushInput v) s = .refused .notAWord) ∧
    transact .readInput s = .next (s, .queue s.inq)

/-- R93 (47_host_interface.md): `POP_OUTPUT` removes and returns the head of `outq` or reports "empty"; `READ_OUTPUT`
returns `outq`. -/
def Obligations.PopOutputRemovesTheHead : Prop :=
  ∀ s : State, (s.outq = [] → transact .popOutput s = .next (s, .empty)) ∧
    (∀ v rest, s.outq = v :: rest → transact .popOutput s = .next ({ s with outq := rest }, .word v)) ∧
    transact .readOutput s = .next (s, .queue s.outq)

/-- R91 (47_host_interface.md): `STEP` returns the run-state the step leaves in `rs`; `READ_STATUS` returns the status
registers, `pc` and `rb`, and changes nothing. -/
def Obligations.StepReportsTheRunStateItLeaves : Prop :=
  ∀ s : State, ∃ t, step s = .next t ∧ transact .step s = .next (t, .runState t.rs) ∧
    transact .readStatus s = .next (s, .status s.rs s.fcause s.fpc s.fval s.pc s.rb)

/-- R94, R95 (47_host_interface.md): a host access inside memory reads or sets the one cell, in every run-state; outside
memory, and for a value that is no word, there is no transition. -/
def Obligations.HostMemoryAccessReadsOrSetsOneCell : Prop :=
  ∀ (s : State) (a : Int) (v : Int), s.mem.wf = true →
    (s.mem.Valid a → (∃ w, memRead s.mem a = .ok w ∧ transact (.memRead a) s = .next (s, .word w)) ∧
      (Word.InRange s.params v → ∃ t, transact (.memWrite a v) s = .next (t, .nothing) ∧ memRead t.mem a = .ok v ∧
        (∀ c, c ≠ a → memRead t.mem c = memRead s.mem c) ∧ t.mem.size = s.mem.size ∧ t = { s with mem := t.mem }) ∧
      (¬ Word.InRange s.params v → transact (.memWrite a v) s = .refused .notAWord)) ∧
    (¬ s.mem.Valid a → transact (.memRead a) s = .refused .hostAddressOutsideMemory ∧
      transact (.memWrite a v) s = .refused .hostAddressOutsideMemory)

/-! ### Invariants -/

/-- R22, R23: the invariants hold at reset (the image and the width of log entries 3 and 1). -/
def Obligations.ResetSatisfiesTheInvariants : Prop := State.reset.Inv

/-- R23 (10_state.md): every step keeps the invariants, from every state that meets them. -/
def Obligations.EveryStepKeepsTheInvariants : Prop :=
  ∀ s t : State, s.Inv → step s = .next t → t.Inv

/-- R23 (10_state.md): the invariants hold in every state a host's transactions lead to. -/
def Obligations.ReachableStatesSatisfyTheInvariants : Prop :=
  ∀ s : State, Reachable s → s.Inv

/-! ### Words -/

/-- R5 (00_scope.md): at every width from 64 bits on, the words are the integers that `XLEN` bits hold in two's complement;
this hardware's are those of 64 bits; and no transaction changes a core's width. -/
def Obligations.WordsAreTheSignedIntegersOfTheWidth : Prop :=
  (∀ n : Nat, 64 ≤ n → ∃ p : Config.Params, p.xlen = n) ∧
  (∀ (p : Config.Params), 64 ≤ p.xlen ∧ ∀ x : Int, Word.InRange p x ↔ ∃ b : BitVec p.xlen, b.toInt = x) ∧
  (State.reset.params.xlen = 64 ∧ Config.WMIN State.reset.params = -9223372036854775808 ∧
    Config.WMAX State.reset.params = 9223372036854775807) ∧
  (∀ (tx : Transaction) (s t : State) (reply : Reply), transact tx s = .next (t, reply) → t.params = s.params)
end

