-- ==== Sys2Proof/Laws/Word.lean ====
section
/-! SUPPORT. Laws/Word: the ranges of words at every width, in the two facts that arithmetic over them needs. -/

namespace Sys2Proof.Config

/-- The bounds of R5 at this hardware's width, as the spec writes them out. -/
theorem hardware_bounds : WMIN hardware = -9223372036854775808 ∧ WMAX hardware = 9223372036854775807 := by decide

/-- The range of words reaches as far down as up, but for one. -/
theorem wmin_eq (p : Params) : WMIN p = -WMAX p - 1 := by unfold WMIN WMAX; omega

/-- Every width has the words of 64 bits: R5's `XLEN >= 64`. -/
theorem wmax_ge (p : Params) : 9223372036854775807 ≤ WMAX p := by
  have h := Nat.pow_le_pow_right (n := 2) (by decide) (Nat.sub_le_sub_right p.atLeast64 1)
  unfold WMAX
  omega

/-- `fval` has one bit more than a word. R19. -/
theorem fval_range (p : Params) : fvalMin p = 2 * WMIN p ∧ fvalMax p = 2 * WMAX p + 1 := by
  have h := p.atLeast64
  have h2 : 2 ^ p.xlen = 2 * 2 ^ (p.xlen - 1) := by
    rw [← pow_succ', Nat.sub_add_cancel (by omega)]
  unfold fvalMin fvalMax WMIN WMAX
  omega

end Sys2Proof.Config

namespace Sys2Proof

/-- A number that 64 bits hold is a word at every width. -/
theorem Word.inRange_of_64 (p : Config.Params) {x : Int} (h0 : -9223372036854775808 ≤ x) (h1 : x ≤ 9223372036854775807) :
    Word.InRange p x := by
  have h := Config.wmax_ge p
  have h' := Config.wmin_eq p
  exact ⟨by omega, by omega⟩

/-- A number from 0 to a number that is at most `WMAX` is a word. -/
theorem Word.inRange_of_nonneg (p : Config.Params) {x : Int} (h0 : 0 ≤ x) (h1 : x ≤ Config.WMAX p) : Word.InRange p x := by
  have h := Config.wmax_ge p
  have h' := Config.wmin_eq p
  exact ⟨by omega, h1⟩

/-- The sum of two words fits `fval`. R19, R107. -/
theorem Word.sum_fits_fval {p : Config.Params} {x y : Int} (hx : Word.InRange p x) (hy : Word.InRange p y) :
    Config.fvalMin p ≤ x + y ∧ x + y ≤ Config.fvalMax p := by
  have h := Config.fval_range p
  have := hx.1
  have := hx.2
  have := hy.1
  have := hy.2
  exact ⟨by omega, by omega⟩

end Sys2Proof
end

