-- ==== Sys2Proof/Laws/Decode.lean ====
section
/-! SUPPORT. Laws/Decode: what each part of the decoder answers, said once. -/

namespace Sys2Proof

theorem modeDigit_le_two (o : Operand) : o.modeDigit ≤ 2 := by
  cases o <;> simp [Operand.modeDigit]

theorem opcode_lt_hundred (i : Instr) : i.opcode < 100 := by
  cases i <;> simp [Instr.opcode]

/-- An instruction word is at most 22299, so it is a word at every width. R48. -/
theorem instructionWord_le (i : Instr) : 0 ≤ instructionWord i ∧ instructionWord i ≤ 22299 := by
  have h := modeDigit_le_two
  unfold instructionWord
  cases i with
  | hlt => decide
  | add a b d => have := h a; have := h b; have := h d; simp only [Instr.opcode, Instr.operands, modesNumber]; omega
  | mul a b d => have := h a; have := h b; have := h d; simp only [Instr.opcode, Instr.operands, modesNumber]; omega
  | lt a b d => have := h a; have := h b; have := h d; simp only [Instr.opcode, Instr.operands, modesNumber]; omega
  | eq a b d => have := h a; have := h b; have := h d; simp only [Instr.opcode, Instr.operands, modesNumber]; omega
  | jnz a b => have := h a; have := h b; simp only [Instr.opcode, Instr.operands, modesNumber]; omega
  | jz a b => have := h a; have := h b; simp only [Instr.opcode, Instr.operands, modesNumber]; omega
  | inp a => have := h a; simp only [Instr.opcode, Instr.operands, modesNumber]; omega
  | out a => have := h a; simp only [Instr.opcode, Instr.operands, modesNumber]; omega
  | arb a => have := h a; simp only [Instr.opcode, Instr.operands, modesNumber]; omega

/-- Every word of the encoding of an instruction whose operand words are words is a word. R41, R48. -/
theorem encode_inRange {p : Config.Params} {i : Instr} (h : i.operandsInRange p = true) {v : Int} (hv : v ∈ encode i) :
    Word.InRange p v := by
  rcases List.mem_cons.mp hv with rfl | hv
  · have := instructionWord_le i
    exact Word.inRange_of_64 p (by omega) (by omega)
  · obtain ⟨o, ho, rfl⟩ := List.mem_map.mp hv
    exact of_decide_eq_true (List.all_eq_true.mp h o ho)

/-- The operand a mode digit makes has that digit and that word. -/
theorem operandOfMode_some {d : Nat} {v : Int} {o : Operand} (h : operandOfMode? d v = some o) :
    o.modeDigit = d ∧ o.word = v := by
  unfold operandOfMode? at h
  split at h <;> cases h <;> exact ⟨rfl, rfl⟩

/-- No operand is made of a mode digit above 2, and of no other. -/
theorem operandOfMode_none {d : Nat} {v : Int} : operandOfMode? d v = none ↔ 2 < d := by
  rcases d with _ | _ | _ | d <;> simp [operandOfMode?]

/-- An operand's own digit makes it of its own word. -/
theorem operandOfMode_modeDigit (o : Operand) : operandOfMode? o.modeDigit o.word = some o := by
  cases o <;> rfl

/-- An operand decodes from its own word under its own digit. -/
theorem decodeOperand_of_digit {modes i : Nat} (o : Operand) (rest : List Int)
    (h : decimalDigit (i - 1) modes = o.modeDigit) : decodeOperand modes i (o.word :: rest) = .ok (o, rest) := by
  simp only [decodeOperand, h, operandOfMode_modeDigit]

/-- All that an operand that decodes can be. -/
theorem decodeOperand_ok {modes i : Nat} {ws rest : List Int} {o : Operand}
    (h : decodeOperand modes i ws = .ok (o, rest)) :
    ws = o.word :: rest ∧ o.modeDigit = decimalDigit (i - 1) modes := by
  unfold decodeOperand at h
  split at h
  · cases h
  · split at h
    · rename_i ho
      cases h
      obtain ⟨hd, rfl⟩ := operandOfMode_some ho
      exact ⟨rfl, hd⟩
    · cases h

theorem checkExcess_ok {w : Int} {modes n : Nat} {i j : Instr} {ws rest : List Int}
    (h : checkExcess w modes n i ws = .ok (j, rest)) : modes / 10 ^ n = 0 ∧ j = i ∧ rest = ws := by
  unfold checkExcess at h
  split at h
  · cases h
    exact ⟨‹_›, rfl, rfl⟩
  · cases h

/-- A list of words that decodes begins with a word that selects a row, whose operands follow. -/
theorem decode_cons_ok {w : Int} {ws : List Int} {r : Instr × List Int} (h : decode (w :: ws) = .ok r) :
    ∃ form, formOfWord? w = some form ∧ decodeForm w (w.toNat / 100) form ws = .ok r := by
  simp only [decode] at h
  split at h
  · cases h
  · exact ⟨_, ‹_›, h⟩

/-- What a decoding step followed by another answers. -/
theorem decodeBind_ok {α β : Type} {x : Except DecodeError α} {f : α → Except DecodeError β} {r : β} :
    (x >>= f) = .ok r ↔ ∃ a, x = .ok a ∧ f a = .ok r := by
  cases x with
  | ok a => exact ⟨fun h => ⟨a, rfl, h⟩, fun ⟨_, ha, h⟩ => by cases ha; exact h⟩
  | error e => exact ⟨fun h => (by cases h), fun ⟨_, ha, _⟩ => (by cases ha)⟩

/-- An instruction word that selects a row is not negative, and its last two digits are the row's opcode. -/
theorem formOfWord_some {w : Int} {form : OpForm} (h : formOfWord? w = some form) :
    0 ≤ w ∧ opForm? (w.toNat % 100) = some form := by
  unfold formOfWord? at h
  split at h
  · cases h
  · exact ⟨Int.not_lt.mp ‹_›, h⟩

/-- The ten rows. -/
theorem opForm_some {op : Nat} {form : OpForm} (h : opForm? op = some form) :
    (op = 1 ∧ form = .three .add) ∨ (op = 2 ∧ form = .three .mul) ∨ (op = 3 ∧ form = .one .inp) ∨
    (op = 4 ∧ form = .one .out) ∨ (op = 5 ∧ form = .two .jnz) ∨ (op = 6 ∧ form = .two .jz) ∨
    (op = 7 ∧ form = .three .lt) ∨ (op = 8 ∧ form = .three .eq) ∨ (op = 9 ∧ form = .one .arb) ∨
    (op = 99 ∧ form = .zero .hlt) := by
  unfold opForm? at h
  split at h <;> first | (cases h; simp) | cases h

end Sys2Proof

namespace Sys2Proof.Machine

/-- The words fetched, one read at a time. -/
theorem fetchWords_succ_of_ok {m : Memory} {n a : Nat} {w : Int} (h : memRead m a = .ok w) :
    fetchWords m (n + 1) a = w :: fetchWords m n (a + 1) := by
  rw [fetchWords, h]

theorem fetchWords_succ_of_error {m : Memory} {n a : Nat} {f : Fatal} (h : memRead m a = .error f) :
    fetchWords m (n + 1) a = [] := by
  rw [fetchWords, h]

/-- An instruction fetched is the head of the words at `pc`. -/
theorem fetchInstr_ok {m : Memory} {pc : Nat} {i : Instr} (h : fetchInstr m pc = .ok i) :
    ∃ rest, decode (fetchWords m maxInstrLength pc) = .ok (i, rest) := by
  unfold fetchInstr at h
  split at h
  · rename_i rest hd
    cases h
    exact ⟨rest, hd⟩
  · cases h

/-- A refusal of the decoder is never an overflow, so its value is recorded as it is. -/
theorem decodeFatal_recorded (p : Config.Params) (pc : Nat) (e : DecodeError) :
    (decodeFatal pc e).recorded p = (decodeFatal pc e).value := by
  cases e <;> rfl

/-- What a fetch that raises records is the value it raises. -/
theorem fetchInstr_error_recorded (p : Config.Params) {m : Memory} {pc : Nat} {f : Fatal}
    (h : fetchInstr m pc = .error f) : f.recorded p = f.value := by
  unfold fetchInstr at h
  split at h
  · cases h
  · cases h
    exact decodeFatal_recorded _ _ _

end Sys2Proof.Machine
end

