-- ==== Sys2Proof/Laws/Memory.lean ====
section
/-! SUPPORT. Laws/Memory: reads after writes, and the canonical form of a memory, which every operation keeps. -/

namespace Sys2Proof.Machine

/-! ### Lists of cells -/

theorem cellsGet_cellsCons (a b : Nat) (v : Int) (rest : List (Nat × Int))
    (h : v = 0 → a = b → cellsGet rest b = 0) :
    cellsGet (cellsCons a v rest) b = if b = a then v else cellsGet rest b := by
  unfold cellsCons
  split
  · rename_i hv
    split
    · rename_i hb
      rw [h hv hb.symm, hv]
    · rfl
  · rfl

/-- A list in canonical form from `low` on lists no address below `low`. -/
theorem cellsGet_below {size low : Nat} {cells : List (Nat × Int)} (h : cellsWf size low cells = true) {a : Nat}
    (ha : a < low) : cellsGet cells a = 0 := by
  induction cells generalizing low with
  | nil => rfl
  | cons c rest ih =>
    obtain ⟨b, u⟩ := c
    simp only [cellsWf, Bool.and_eq_true, decide_eq_true_eq] at h
    have hne : a ≠ b := by omega
    simp only [cellsGet, if_neg hne]
    exact ih h.2 (by omega)

/-- A list in canonical form holds 0 at every address from `size` on. -/
theorem cellsGet_above {size low : Nat} {cells : List (Nat × Int)} (h : cellsWf size low cells = true) {a : Nat}
    (ha : size ≤ a) : cellsGet cells a = 0 := by
  induction cells generalizing low with
  | nil => rfl
  | cons c rest ih =>
    obtain ⟨b, u⟩ := c
    simp only [cellsWf, Bool.and_eq_true, decide_eq_true_eq] at h
    have hne : a ≠ b := by omega
    simp only [cellsGet, if_neg hne]
    exact ih h.2

theorem cellsWf_weaken {size low low' : Nat} {cells : List (Nat × Int)} (h : cellsWf size low cells = true)
    (hl : low' ≤ low) : cellsWf size low' cells = true := by
  cases cells with
  | nil => rfl
  | cons c rest =>
    simp only [cellsWf, Bool.and_eq_true, decide_eq_true_eq] at h ⊢
    exact ⟨⟨⟨by omega, h.1.1.2⟩, h.1.2⟩, h.2⟩

theorem cellsWf_grow {size size' low : Nat} {cells : List (Nat × Int)} (h : cellsWf size low cells = true)
    (hs : size ≤ size') : cellsWf size' low cells = true := by
  induction cells generalizing low with
  | nil => rfl
  | cons c rest ih =>
    simp only [cellsWf, Bool.and_eq_true, decide_eq_true_eq] at h ⊢
    exact ⟨⟨⟨h.1.1.1, by omega⟩, h.1.2⟩, ih h.2⟩

theorem cellsWf_cellsCons {size low a : Nat} {v : Int} {rest : List (Nat × Int)}
    (h : cellsWf size (a + 1) rest = true) (hl : low ≤ a) (ha : a < size) :
    cellsWf size low (cellsCons a v rest) = true := by
  unfold cellsCons
  split
  · exact cellsWf_weaken h (by omega)
  · rename_i hv
    simp [cellsWf, hl, ha, hv, h]

/-- Putting a cell keeps the canonical form. -/
theorem cellsWf_cellsPut {size low a : Nat} {v : Int} {cells : List (Nat × Int)} (h : cellsWf size low cells = true)
    (hl : low ≤ a) (ha : a < size) : cellsWf size low (cellsPut cells a v) = true := by
  induction cells generalizing low with
  | nil => exact cellsWf_cellsCons rfl hl ha
  | cons c rest ih =>
    obtain ⟨b, u⟩ := c
    have hc := h
    simp only [cellsWf, Bool.and_eq_true, decide_eq_true_eq] at h
    unfold cellsPut
    split
    · rename_i hab
      refine cellsWf_cellsCons ?_ hl ha
      simp only [cellsWf, Bool.and_eq_true, decide_eq_true_eq]
      exact ⟨⟨⟨by omega, h.1.1.2⟩, h.1.2⟩, h.2⟩
    · split
      · rename_i hab
        exact cellsWf_cellsCons (hab ▸ h.2) hl ha
      · simp only [cellsWf, Bool.and_eq_true, decide_eq_true_eq]
        exact ⟨h.1, ih h.2 (by omega)⟩

/-- The cell just put reads as the word put there. -/
theorem cellsGet_cellsPut_same {size low : Nat} {cells : List (Nat × Int)} (h : cellsWf size low cells = true)
    (a : Nat) (v : Int) : cellsGet (cellsPut cells a v) a = v := by
  induction cells generalizing low with
  | nil =>
    unfold cellsPut
    rw [cellsGet_cellsCons _ _ _ _ (fun _ _ => rfl), if_pos rfl]
  | cons c rest ih =>
    obtain ⟨b, u⟩ := c
    have hc := h
    simp only [cellsWf, Bool.and_eq_true, decide_eq_true_eq] at h
    unfold cellsPut
    split
    · rename_i hab
      rw [cellsGet_cellsCons _ _ _ _ (fun _ _ => ?_), if_pos rfl]
      simp only [cellsGet, if_neg (by omega : a ≠ b)]
      exact cellsGet_below h.2 (by omega)
    · split
      · rename_i hab
        rw [cellsGet_cellsCons _ _ _ _ (fun _ _ => cellsGet_below h.2 (by omega)), if_pos rfl]
      · rename_i h1 h2
        simp only [cellsGet, if_neg h2]
        exact ih h.2

/-- Every other cell reads as before, in canonical form or not. -/
theorem cellsGet_cellsPut_other (cells : List (Nat × Int)) {a b : Nat} (v : Int) (hab : b ≠ a) :
    cellsGet (cellsPut cells a v) b = cellsGet cells b := by
  induction cells with
  | nil =>
    unfold cellsPut
    rw [cellsGet_cellsCons _ _ _ _ (fun _ h => absurd h.symm hab), if_neg hab]
  | cons c rest ih =>
    obtain ⟨k, u⟩ := c
    unfold cellsPut
    split
    · rw [cellsGet_cellsCons _ _ _ _ (fun _ h => absurd h.symm hab), if_neg hab]
    · split
      · rename_i hk
        rw [cellsGet_cellsCons _ _ _ _ (fun _ h => absurd h.symm hab), if_neg hab]
        simp only [cellsGet, if_neg (by omega : b ≠ k)]
      · simp only [cellsGet]
        split
        · rfl
        · exact ih

theorem cellsWf_imageCells (image : List Int) (a size : Nat) (h : a + image.length ≤ size) :
    cellsWf size a (imageCells a image) = true := by
  induction image generalizing a with
  | nil => rfl
  | cons v rest ih =>
    simp only [List.length_cons] at h
    exact cellsWf_cellsCons (ih (a + 1) (by omega)) (Nat.le_refl a) (by omega)

theorem cellsWf_cellsPutAll {size : Nat} (ws : List Int) (cells : List (Nat × Int)) (a : Nat)
    (h : cellsWf size 0 cells = true) (ha : a + ws.length ≤ size) : cellsWf size 0 (cellsPutAll cells a ws) = true := by
  induction ws generalizing cells a with
  | nil => exact h
  | cons v rest ih =>
    simp only [List.length_cons] at ha
    exact ih _ _ (cellsWf_cellsPut h (Nat.zero_le a) (by omega)) (by omega)

/-! ### Memories -/

/-- An image makes a memory in canonical form. -/
theorem ofImage_wf (image : List Int) : (Memory.ofImage image).wf = true :=
  cellsWf_imageCells image 0 image.length (by omega)

/-- The memory at reset is in canonical form. -/
theorem reset_mem_wf : State.reset.mem.wf = true := rfl

/-- Loading words keeps the canonical form. -/
theorem loadWords_wf {m : Memory} (h : m.wf = true) (a : Nat) (ws : List Int) : (loadWords m a ws).wf = true :=
  cellsWf_cellsPutAll ws m.cells a (cellsWf_grow h (Nat.le_max_left _ _)) (Nat.le_max_right _ _)

/-- `MemRead` answers exactly inside the bounds. -/
theorem memRead_of_valid {m : Memory} {a : Int} (h : m.Valid a) : memRead m a = .ok (cellsGet m.cells a.toNat) :=
  if_pos h

/-- `MemRead` raises exactly outside the bounds. -/
theorem memRead_of_not_valid {m : Memory} {a : Int} (h : ¬ m.Valid a) : memRead m a = .error ⟨.memoryBounds, a⟩ :=
  if_neg h

theorem memWrite_of_valid {m : Memory} {a : Int} (v : Int) (h : m.Valid a) :
    memWrite m a v = .ok { m with cells := cellsPut m.cells a.toNat v } := if_pos h

theorem memWrite_of_not_valid {m : Memory} {a : Int} (v : Int) (h : ¬ m.Valid a) :
    memWrite m a v = .error ⟨.memoryBounds, a⟩ := if_neg h

/-- All that a read that answers can be. -/
theorem memRead_ok {m : Memory} {a : Int} {v : Int} (h : memRead m a = .ok v) :
    m.Valid a ∧ v = cellsGet m.cells a.toNat := by
  unfold memRead at h
  split at h
  · exact ⟨‹_›, (Except.ok.inj h).symm⟩
  · cases h

/-- All that a read that raises can be. -/
theorem memRead_error {m : Memory} {a : Int} {f : Fatal} (h : memRead m a = .error f) :
    ¬ m.Valid a ∧ f = ⟨.memoryBounds, a⟩ := by
  unfold memRead at h
  split at h
  · cases h
  · exact ⟨‹_›, (Except.error.inj h).symm⟩

/-- All that a write that answers can be. -/
theorem memWrite_ok {m m' : Memory} {a : Int} {v : Int} (h : memWrite m a v = .ok m') :
    m.Valid a ∧ m' = { m with cells := cellsPut m.cells a.toNat v } := by
  unfold memWrite at h
  split at h
  · exact ⟨‹_›, (Except.ok.inj h).symm⟩
  · cases h

/-- All that a write that raises can be. -/
theorem memWrite_error {m : Memory} {a : Int} {v : Int} {f : Fatal} (h : memWrite m a v = .error f) :
    ¬ m.Valid a ∧ f = ⟨.memoryBounds, a⟩ := by
  unfold memWrite at h
  split at h
  · cases h
  · exact ⟨‹_›, (Except.error.inj h).symm⟩

/-- A write keeps the number of cells. -/
theorem memWrite_size {m m' : Memory} {a : Int} {v : Int} (h : memWrite m a v = .ok m') : m'.size = m.size := by
  rw [(memWrite_ok h).2]

/-- A read of a memory with other cells and as many of them. -/
theorem memRead_with_cells {m : Memory} (cells : List (Nat × Int)) {a : Int} (h : m.Valid a) :
    memRead { m with cells := cells } a = .ok (cellsGet cells a.toNat) := if_pos h

/-- A write keeps the canonical form. -/
theorem memWrite_wf {m m' : Memory} {a : Int} {v : Int} (hm : m.wf = true) (h : memWrite m a v = .ok m') :
    m'.wf = true := by
  obtain ⟨⟨h0, h1⟩, rfl⟩ := memWrite_ok h
  have ha : a.toNat < m.size := by omega
  exact cellsWf_cellsPut hm (Nat.zero_le _) ha

/-- The cell written reads as the word written. -/
theorem memRead_memWrite_same {m m' : Memory} {a : Int} {v : Int} (hm : m.wf = true) (h : memWrite m a v = .ok m') :
    memRead m' a = .ok v := by
  obtain ⟨hv, rfl⟩ := memWrite_ok h
  rw [memRead_with_cells _ hv, cellsGet_cellsPut_same hm]

/-- Every other address reads as before. -/
theorem memRead_memWrite_other {m m' : Memory} {a b : Int} {v : Int} (h : memWrite m a v = .ok m') (hab : b ≠ a) :
    memRead m' b = memRead m b := by
  obtain ⟨⟨h0, h1⟩, rfl⟩ := memWrite_ok h
  by_cases hb : m.Valid b
  · rw [memRead_of_valid hb, memRead_with_cells _ hb, cellsGet_cellsPut_other]
    have := hb.1
    omega
  · rw [memRead_of_not_valid hb]
    exact memRead_of_not_valid hb

end Sys2Proof.Machine
end

