-- ==== Sys2Proof/Laws/State.lean ====
section
/-! SUPPORT. Laws/State: one lemma per field per named update of a state, each true by definition. -/

namespace Sys2Proof.Machine

@[simp] theorem commit_params (s : State) (n : Nat) : (commit s n).params = s.params := rfl
@[simp] theorem commit_mem (s : State) (n : Nat) : (commit s n).mem = s.mem := rfl
@[simp] theorem commit_pc (s : State) (n : Nat) : (commit s n).pc = s.pc + n := rfl
@[simp] theorem commit_rb (s : State) (n : Nat) : (commit s n).rb = s.rb := rfl
@[simp] theorem commit_inq (s : State) (n : Nat) : (commit s n).inq = s.inq := rfl
@[simp] theorem commit_outq (s : State) (n : Nat) : (commit s n).outq = s.outq := rfl
@[simp] theorem commit_rs (s : State) (n : Nat) : (commit s n).rs = s.rs := rfl
@[simp] theorem commit_fcause (s : State) (n : Nat) : (commit s n).fcause = s.fcause := rfl
@[simp] theorem commit_fpc (s : State) (n : Nat) : (commit s n).fpc = s.fpc := rfl
@[simp] theorem commit_fval (s : State) (n : Nat) : (commit s n).fval = s.fval := rfl

@[simp] theorem report_params (s : State) (r : RunState) : (report s r).params = s.params := rfl
@[simp] theorem report_mem (s : State) (r : RunState) : (report s r).mem = s.mem := rfl
@[simp] theorem report_pc (s : State) (r : RunState) : (report s r).pc = s.pc := rfl
@[simp] theorem report_rb (s : State) (r : RunState) : (report s r).rb = s.rb := rfl
@[simp] theorem report_inq (s : State) (r : RunState) : (report s r).inq = s.inq := rfl
@[simp] theorem report_outq (s : State) (r : RunState) : (report s r).outq = s.outq := rfl
@[simp] theorem report_rs (s : State) (r : RunState) : (report s r).rs = r := rfl
@[simp] theorem report_fcause (s : State) (r : RunState) : (report s r).fcause = s.fcause := rfl
@[simp] theorem report_fpc (s : State) (r : RunState) : (report s r).fpc = s.fpc := rfl
@[simp] theorem report_fval (s : State) (r : RunState) : (report s r).fval = s.fval := rfl

@[simp] theorem takeFault_params (s : State) (f : Fatal) : (takeFault s f).params = s.params := rfl
@[simp] theorem takeFault_mem (s : State) (f : Fatal) : (takeFault s f).mem = s.mem := rfl
@[simp] theorem takeFault_pc (s : State) (f : Fatal) : (takeFault s f).pc = s.pc := rfl
@[simp] theorem takeFault_rb (s : State) (f : Fatal) : (takeFault s f).rb = s.rb := rfl
@[simp] theorem takeFault_inq (s : State) (f : Fatal) : (takeFault s f).inq = s.inq := rfl
@[simp] theorem takeFault_outq (s : State) (f : Fatal) : (takeFault s f).outq = s.outq := rfl
@[simp] theorem takeFault_rs (s : State) (f : Fatal) : (takeFault s f).rs = .faulted := rfl
@[simp] theorem takeFault_fcause (s : State) (f : Fatal) : (takeFault s f).fcause = some f.cause := rfl
@[simp] theorem takeFault_fpc (s : State) (f : Fatal) : (takeFault s f).fpc = s.pc := rfl
@[simp] theorem takeFault_fval (s : State) (f : Fatal) : (takeFault s f).fval = f.recorded s.params := rfl

@[simp] theorem resetWith_params (p : Config.Params) (image input0 : List Int) : (resetWith p image input0).params = p := rfl
@[simp] theorem resetWith_mem (p : Config.Params) (image input0 : List Int) :
    (resetWith p image input0).mem = Memory.ofImage image := rfl
@[simp] theorem resetWith_pc (p : Config.Params) (image input0 : List Int) : (resetWith p image input0).pc = 0 := rfl
@[simp] theorem resetWith_rb (p : Config.Params) (image input0 : List Int) : (resetWith p image input0).rb = 0 := rfl
@[simp] theorem resetWith_inq (p : Config.Params) (image input0 : List Int) : (resetWith p image input0).inq = input0 := rfl
@[simp] theorem resetWith_outq (p : Config.Params) (image input0 : List Int) : (resetWith p image input0).outq = [] := rfl
@[simp] theorem resetWith_rs (p : Config.Params) (image input0 : List Int) : (resetWith p image input0).rs = .running := rfl
@[simp] theorem resetWith_fcause (p : Config.Params) (image input0 : List Int) : (resetWith p image input0).fcause = none := rfl
@[simp] theorem resetWith_fpc (p : Config.Params) (image input0 : List Int) : (resetWith p image input0).fpc = 0 := rfl
@[simp] theorem resetWith_fval (p : Config.Params) (image input0 : List Int) : (resetWith p image input0).fval = 0 := rfl

/-- `State.reset` is `RESET([], [])` of this hardware. -/
theorem resetWith_empty : resetWith Config.hardware [] [] = State.reset := rfl

/-- A fatal error other than an overflow leaves its value in `fval`. -/
theorem recorded_of_not_overflow (p : Config.Params) (f : Fatal) (h : f.cause ≠ .arithmeticOverflow) :
    f.recorded p = f.value := by
  obtain ⟨cause, value⟩ := f
  cases cause <;> first | rfl | exact absurd rfl h

/-- An overflow that the register can hold leaves the exact result in `fval`. -/
theorem heldResult_of_fits {p : Config.Params} {x : Int} (h : Config.fvalMin p ≤ x ∧ x ≤ Config.fvalMax p) :
    heldResult p x = x := if_pos h

/-- The two run-states in which no step is enabled. -/
theorem enabled_eq_false (r : RunState) : r.enabled = false ↔ r = .halted ∨ r = .faulted := by
  cases r <;> decide

/-- An enabled run-state is not `Faulted`. -/
theorem ne_faulted_of_enabled (r : RunState) (h : r.enabled = true) : r ≠ .faulted := by
  rintro rfl
  cases h

@[simp] theorem enableStep_params (s : State) : (enableStep s).params = s.params := by unfold enableStep; split <;> rfl
@[simp] theorem enableStep_mem (s : State) : (enableStep s).mem = s.mem := by unfold enableStep; split <;> rfl
@[simp] theorem enableStep_pc (s : State) : (enableStep s).pc = s.pc := by unfold enableStep; split <;> rfl
@[simp] theorem enableStep_rb (s : State) : (enableStep s).rb = s.rb := by unfold enableStep; split <;> rfl
@[simp] theorem enableStep_inq (s : State) : (enableStep s).inq = s.inq := by unfold enableStep; split <;> rfl
@[simp] theorem enableStep_outq (s : State) : (enableStep s).outq = s.outq := by unfold enableStep; split <;> rfl

/-- After `enableStep` a step is enabled. -/
theorem enableStep_enabled (s : State) : (enableStep s).rs.enabled = true := by
  unfold enableStep
  split
  · assumption
  · rfl

end Sys2Proof.Machine
end

