-- ==== Sys2Proof/Laws/Executor.lean ====
section
/-! SUPPORT. Laws/Executor: what each shared operation of the executor, each meaning and the step can do, said once. -/

namespace Sys2Proof.Machine

/-- What a computation followed by another answers. -/
theorem bind_ok {α β : Type} {x : Except Fatal α} {f : α → Except Fatal β} {r : β} :
    (x >>= f) = .ok r ↔ ∃ a, x = .ok a ∧ f a = .ok r := by
  cases x with
  | ok a => exact ⟨fun h => ⟨a, rfl, h⟩, fun ⟨_, ha, h⟩ => by cases ha; exact h⟩
  | error e => exact ⟨fun h => (by cases h), fun ⟨_, ha, _⟩ => (by cases ha)⟩

/-- What a computation followed by another raises. -/
theorem bind_error {α β : Type} {x : Except Fatal α} {f : α → Except Fatal β} {e : Fatal} :
    (x >>= f) = .error e ↔ x = .error e ∨ ∃ a, x = .ok a ∧ f a = .error e := by
  cases x with
  | ok a =>
    refine ⟨fun h => .inr ⟨a, rfl, h⟩, ?_⟩
    rintro (h | ⟨_, ha, h⟩)
    · cases h
    · cases ha
      exact h
  | error e' =>
    refine ⟨fun h => .inl (by cases h; rfl), ?_⟩
    rintro (h | ⟨_, ha, _⟩)
    · cases h
      rfl
    · cases ha

/-- `conclude` answers a next state always: the result reported as `Running`, or the fault taken. -/
theorem conclude_cases {s t : State} {r : Except Fatal State} (h : conclude s r = .next t) :
    (∃ u, r = .ok u ∧ t = report u .running) ∨ ∃ f, r = .error f ∧ t = takeFault s f := by
  cases r with
  | ok u => exact .inl ⟨u, rfl, (Host.Outcome.next.inj h).symm⟩
  | error f => exact .inr ⟨f, rfl, (Host.Outcome.next.inj h).symm⟩

/-- Only `MemoryBounds` is raised by a load, with the operand's address. -/
theorem readOperand_error {m : Memory} {o : Located} {f : Fatal} (h : readOperand m o = .error f) :
    ∃ a, o.address = some a ∧ ¬ m.Valid a ∧ f = ⟨.memoryBounds, a⟩ := by
  cases o with
  | imm v => cases h
  | pos a => exact ⟨a, rfl, memRead_error h⟩
  | rel a => exact ⟨a, rfl, memRead_error h⟩

/-- A store that answers went through an operand with an address, and wrote there. -/
theorem storeOperand_ok {m m' : Memory} {o : Located} {x : Int} (h : storeOperand m o x = .ok m') :
    ∃ a, o.address = some a ∧ memWrite m a x = .ok m' := by
  cases o with
  | imm v => cases h
  | pos a => exact ⟨a, rfl, h⟩
  | rel a => exact ⟨a, rfl, h⟩

/-- A store through an address is a write there. -/
theorem storeOperand_of_address {m : Memory} {o : Located} {a : Int} (x : Int) (h : o.address = some a) :
    storeOperand m o x = memWrite m a x := by
  cases o with
  | imm v => cases h
  | pos b => cases h; rfl
  | rel b => cases h; rfl

/-- A load from an address is a read there. -/
theorem readOperand_of_address {m : Memory} {o : Located} {a : Int} (h : o.address = some a) :
    readOperand m o = memRead m a := by
  cases o with
  | imm v => cases h
  | pos b => cases h; rfl
  | rel b => cases h; rfl

theorem readTwo_ok {m : Memory} {o1 o2 : Located} {x y : Int} :
    readTwo m o1 o2 = .ok (x, y) ↔ readOperand m o1 = .ok x ∧ readOperand m o2 = .ok y := by
  simp [readTwo, bind_ok]

/-- An exact result in range is narrowed to itself. -/
theorem narrow_of_inRange {p : Config.Params} {x : Int} (h : Word.InRange p x) : narrow p x = .ok x := if_pos h

theorem narrow_of_not_inRange {p : Config.Params} {x : Int} (h : ¬ Word.InRange p x) :
    narrow p x = .error ⟨.arithmeticOverflow, x⟩ := if_neg h

/-- What is narrowed is the exact result, and a word. -/
theorem narrow_ok {p : Config.Params} {x : Int} {w : Int} (h : narrow p x = .ok w) : w = x ∧ Word.InRange p w := by
  unfold narrow at h
  split at h
  · cases h; exact ⟨rfl, ‹_›⟩
  · cases h

/-- A truth value is a word at every width. -/
theorem truthWord_inRange (p : Config.Params) (b : Bool) : Word.InRange p (truthWord b) := by
  cases b <;> exact Word.inRange_of_64 p (by decide) (by decide)

/-- The value of a read operand is its operand word or the word of a cell. -/
theorem readOperand_ok {m : Memory} {rb : Int} {o : Operand} {x : Int} (h : readOperand m (locate rb o) = .ok x) :
    (o = .imm x) ∨ ∃ a, memRead m a = .ok x := by
  cases o with
  | imm v => cases h; exact .inl rfl
  | pos v => exact .inr ⟨_, h⟩
  | rel v => exact .inr ⟨_, h⟩

/-- All that the shared executor of ADD, MUL, LT and EQ can answer. -/
theorem computeAndStore_ok {f : Int → Int → Except Fatal Int} {a b dest : Operand} {s u : State}
    (h : computeAndStore f a b dest s = .ok u) :
    ∃ x y r m addr, readOperand s.mem (locate s.rb a) = .ok x ∧ readOperand s.mem (locate s.rb b) = .ok y ∧
      f x y = .ok r ∧ (locate s.rb dest).address = some addr ∧ memWrite s.mem addr r = .ok m ∧
      u = { commit s 4 with mem := m } := by
  obtain ⟨⟨x, y⟩, hxy, h⟩ := bind_ok.mp h
  obtain ⟨r, hr, h⟩ := bind_ok.mp h
  obtain ⟨m, hm, h⟩ := bind_ok.mp h
  obtain ⟨addr, haddr, hw⟩ := storeOperand_ok hm
  exact ⟨x, y, r, m, addr, (readTwo_ok.mp hxy).1, (readTwo_ok.mp hxy).2, hr, haddr, hw, (Except.ok.inj h).symm⟩

/-- The shared executor of ADD, MUL, LT and EQ, run. -/
theorem computeAndStore_of_ok {f : Int → Int → Except Fatal Int} {a b dest : Operand} {s : State} {x y r : Int}
    {m : Memory} {addr : Int} (hx : readOperand s.mem (locate s.rb a) = .ok x)
    (hy : readOperand s.mem (locate s.rb b) = .ok y) (hr : f x y = .ok r)
    (ha : (locate s.rb dest).address = some addr) (hm : memWrite s.mem addr r = .ok m) :
    computeAndStore f a b dest s = .ok { commit s 4 with mem := m } :=
  bind_ok.mpr ⟨(x, y), readTwo_ok.mpr ⟨hx, hy⟩, bind_ok.mpr ⟨r, hr, bind_ok.mpr
    ⟨m, by rw [storeOperand_of_address r ha, hm], rfl⟩⟩⟩

/-- All that the shared executor of JNZ and JZ can answer. -/
theorem jumpWhen_ok {taken : Int → Bool} {a b : Operand} {s u : State} (h : jumpWhen taken a b s = .ok u) :
    ∃ x y, readOperand s.mem (locate s.rb a) = .ok x ∧ readOperand s.mem (locate s.rb b) = .ok y ∧
      ((taken x = true ∧ 0 ≤ y ∧ u = { commit s 3 with pc := y.toNat }) ∨
        (taken x = false ∧ u = commit s 3)) := by
  obtain ⟨⟨x, y⟩, hxy, h⟩ := bind_ok.mp h
  refine ⟨x, y, (readTwo_ok.mp hxy).1, (readTwo_ok.mp hxy).2, ?_⟩
  dsimp only at h
  cases hx : taken x with
  | true =>
    rw [hx, if_pos rfl] at h
    obtain ⟨p, hp, h⟩ := bind_ok.mp h
    unfold jumpTarget at hp
    split at hp
    · cases hp
    · cases hp
      exact .inl ⟨rfl, by omega, (Except.ok.inj h).symm⟩
  | false =>
    rw [hx] at h
    exact .inr ⟨rfl, (Except.ok.inj h).symm⟩

/-! ### Each meaning: every next state it can answer -/

theorem execAdd_cases {a b dest : Operand} {s t : State} (h : execAdd a b dest s = .next t) :
    (∃ m addr v, (locate s.rb dest).address = some addr ∧ memWrite s.mem addr v = .ok m ∧ Word.InRange s.params v ∧
      t = report { commit s 4 with mem := m } .running) ∨ ∃ f, t = takeFault s f := by
  obtain ⟨u, hu, rfl⟩ | ⟨f, -, rfl⟩ := conclude_cases h
  · obtain ⟨_, _, r, m, addr, -, -, hr, ha, hm, rfl⟩ := computeAndStore_ok hu
    exact .inl ⟨m, addr, r, ha, hm, (narrow_ok hr).2, rfl⟩
  · exact .inr ⟨f, rfl⟩

theorem execMul_cases {a b dest : Operand} {s t : State} (h : execMul a b dest s = .next t) :
    (∃ m addr v, (locate s.rb dest).address = some addr ∧ memWrite s.mem addr v = .ok m ∧ Word.InRange s.params v ∧
      t = report { commit s 4 with mem := m } .running) ∨ ∃ f, t = takeFault s f := by
  obtain ⟨u, hu, rfl⟩ | ⟨f, -, rfl⟩ := conclude_cases h
  · obtain ⟨_, _, r, m, addr, -, -, hr, ha, hm, rfl⟩ := computeAndStore_ok hu
    exact .inl ⟨m, addr, r, ha, hm, (narrow_ok hr).2, rfl⟩
  · exact .inr ⟨f, rfl⟩

theorem execLt_cases {a b dest : Operand} {s t : State} (h : execLt a b dest s = .next t) :
    (∃ m addr v, (locate s.rb dest).address = some addr ∧ memWrite s.mem addr v = .ok m ∧ Word.InRange s.params v ∧
      t = report { commit s 4 with mem := m } .running) ∨ ∃ f, t = takeFault s f := by
  obtain ⟨u, hu, rfl⟩ | ⟨f, -, rfl⟩ := conclude_cases h
  · obtain ⟨_, _, _, m, addr, -, -, hr, ha, hm, rfl⟩ := computeAndStore_ok hu
    exact .inl ⟨m, addr, _, ha, hm, Except.ok.inj hr ▸ truthWord_inRange _ _, rfl⟩
  · exact .inr ⟨f, rfl⟩

theorem execEq_cases {a b dest : Operand} {s t : State} (h : execEq a b dest s = .next t) :
    (∃ m addr v, (locate s.rb dest).address = some addr ∧ memWrite s.mem addr v = .ok m ∧ Word.InRange s.params v ∧
      t = report { commit s 4 with mem := m } .running) ∨ ∃ f, t = takeFault s f := by
  obtain ⟨u, hu, rfl⟩ | ⟨f, -, rfl⟩ := conclude_cases h
  · obtain ⟨_, _, _, m, addr, -, -, hr, ha, hm, rfl⟩ := computeAndStore_ok hu
    exact .inl ⟨m, addr, _, ha, hm, Except.ok.inj hr ▸ truthWord_inRange _ _, rfl⟩
  · exact .inr ⟨f, rfl⟩

theorem execIn_cases {dest : Operand} {s t : State} (h : execIn dest s = .next t) :
    (s.inq = [] ∧ t = report s .needsInput) ∨
    (∃ x rest m addr, s.inq = x :: rest ∧ (locate s.rb dest).address = some addr ∧ memWrite s.mem addr x = .ok m ∧
      t = report { commit s 2 with mem := m, inq := rest } .running) ∨
    (s.inq ≠ [] ∧ ∃ f, t = takeFault s f) := by
  unfold execIn at h
  split at h
  · rename_i hq
    exact .inl ⟨hq, (Host.Outcome.next.inj h).symm⟩
  · rename_i x rest hq
    obtain ⟨u, hu, rfl⟩ | ⟨f, -, rfl⟩ := conclude_cases h
    · obtain ⟨m, hm, hu⟩ := bind_ok.mp hu
      obtain ⟨addr, ha, hw⟩ := storeOperand_ok hm
      cases hu
      exact .inr (.inl ⟨x, rest, m, addr, hq, ha, hw, rfl⟩)
    · exact .inr (.inr ⟨by rw [hq]; exact List.cons_ne_nil _ _, f, rfl⟩)

theorem execOut_cases {a : Operand} {s t : State} (h : execOut a s = .next t) :
    (∃ x, readOperand s.mem (locate s.rb a) = .ok x ∧
      t = report { commit s 2 with outq := s.outq ++ [x] } .running) ∨ ∃ f, t = takeFault s f := by
  obtain ⟨u, hu, rfl⟩ | ⟨f, -, rfl⟩ := conclude_cases h
  · obtain ⟨x, hx, hu⟩ := bind_ok.mp hu
    cases hu
    exact .inl ⟨x, hx, rfl⟩
  · exact .inr ⟨f, rfl⟩

theorem execJnz_cases {a b : Operand} {s t : State} (h : execJnz a b s = .next t) :
    (∃ y, readOperand s.mem (locate s.rb b) = .ok y ∧ 0 ≤ y ∧ t = report { commit s 3 with pc := y.toNat } .running) ∨
    t = report (commit s 3) .running ∨ ∃ f, t = takeFault s f := by
  obtain ⟨u, hu, rfl⟩ | ⟨f, -, rfl⟩ := conclude_cases h
  · obtain ⟨x, y, -, hr, ⟨-, hy, rfl⟩ | ⟨-, rfl⟩⟩ := jumpWhen_ok hu
    · exact .inl ⟨y, hr, hy, rfl⟩
    · exact .inr (.inl rfl)
  · exact .inr (.inr ⟨f, rfl⟩)

theorem execJz_cases {a b : Operand} {s t : State} (h : execJz a b s = .next t) :
    (∃ y, readOperand s.mem (locate s.rb b) = .ok y ∧ 0 ≤ y ∧ t = report { commit s 3 with pc := y.toNat } .running) ∨
    t = report (commit s 3) .running ∨ ∃ f, t = takeFault s f := by
  obtain ⟨u, hu, rfl⟩ | ⟨f, -, rfl⟩ := conclude_cases h
  · obtain ⟨x, y, -, hr, ⟨-, hy, rfl⟩ | ⟨-, rfl⟩⟩ := jumpWhen_ok hu
    · exact .inl ⟨y, hr, hy, rfl⟩
    · exact .inr (.inl rfl)
  · exact .inr (.inr ⟨f, rfl⟩)

theorem execArb_cases {a : Operand} {s t : State} (h : execArb a s = .next t) :
    (∃ rb, Word.InRange s.params rb ∧ t = report { commit s 2 with rb := rb } .running) ∨ ∃ f, t = takeFault s f := by
  obtain ⟨u, hu, rfl⟩ | ⟨f, -, rfl⟩ := conclude_cases h
  · obtain ⟨x, -, hu⟩ := bind_ok.mp hu
    obtain ⟨rb, hr, hu⟩ := bind_ok.mp hu
    cases hu
    exact .inl ⟨rb, (narrow_ok hr).2, rfl⟩
  · exact .inr ⟨f, rfl⟩

/-- Every way an instruction can leave the state: one inversion for all ten, by what it writes. -/
theorem exec_cases {i : Instr} {s t : State} (h : exec i s = .next t) :
    (∃ f, t = takeFault s f) ∨
    (∃ dest, i = .inp dest ∧ s.inq = [] ∧ t = report s .needsInput) ∨
    (i = .hlt ∧ t = report (commit s 1) .halted) ∨
    (∃ dest m addr v n q, i.dest = some dest ∧ (locate s.rb dest).address = some addr ∧ memWrite s.mem addr v = .ok m ∧
      n = i.length ∧
      ((q = s.inq ∧ Word.InRange s.params v ∧ ∀ d, i ≠ .inp d) ∨ (s.inq = v :: q ∧ i = .inp dest)) ∧
      t = report { commit s n with mem := m, inq := q } .running) ∨
    (∃ a x, i = .out a ∧ readOperand s.mem (locate s.rb a) = .ok x ∧
      t = report { commit s 2 with outq := s.outq ++ [x] } .running) ∨
    (∃ a b p, (i = .jnz a b ∨ i = .jz a b) ∧ (p = s.pc + 3 ∨
        ∃ y, readOperand s.mem (locate s.rb b) = .ok y ∧ 0 ≤ y ∧ p = y.toNat) ∧
      t = report { commit s 3 with pc := p } .running) ∨
    (∃ a rb, i = .arb a ∧ Word.InRange s.params rb ∧ t = report { commit s 2 with rb := rb } .running) := by
  cases i with
  | add a b dest =>
    obtain ⟨m, addr, v, ha, hm, hv, rfl⟩ | ⟨f, rfl⟩ := execAdd_cases h
    · exact .inr (.inr (.inr (.inl ⟨dest, m, addr, v, 4, _, rfl, ha, hm, rfl, .inl ⟨rfl, hv, fun _ => nofun⟩, rfl⟩)))
    · exact .inl ⟨f, rfl⟩
  | mul a b dest =>
    obtain ⟨m, addr, v, ha, hm, hv, rfl⟩ | ⟨f, rfl⟩ := execMul_cases h
    · exact .inr (.inr (.inr (.inl ⟨dest, m, addr, v, 4, _, rfl, ha, hm, rfl, .inl ⟨rfl, hv, fun _ => nofun⟩, rfl⟩)))
    · exact .inl ⟨f, rfl⟩
  | lt a b dest =>
    obtain ⟨m, addr, v, ha, hm, hv, rfl⟩ | ⟨f, rfl⟩ := execLt_cases h
    · exact .inr (.inr (.inr (.inl ⟨dest, m, addr, v, 4, _, rfl, ha, hm, rfl, .inl ⟨rfl, hv, fun _ => nofun⟩, rfl⟩)))
    · exact .inl ⟨f, rfl⟩
  | eq a b dest =>
    obtain ⟨m, addr, v, ha, hm, hv, rfl⟩ | ⟨f, rfl⟩ := execEq_cases h
    · exact .inr (.inr (.inr (.inl ⟨dest, m, addr, v, 4, _, rfl, ha, hm, rfl, .inl ⟨rfl, hv, fun _ => nofun⟩, rfl⟩)))
    · exact .inl ⟨f, rfl⟩
  | inp dest =>
    obtain ⟨hq, rfl⟩ | ⟨x, rest, m, addr, hq, ha, hm, rfl⟩ | ⟨-, f, rfl⟩ := execIn_cases h
    · exact .inr (.inl ⟨dest, rfl, hq, rfl⟩)
    · exact .inr (.inr (.inr (.inl ⟨dest, m, addr, x, 2, rest, rfl, ha, hm, rfl, .inr ⟨hq, rfl⟩, rfl⟩)))
    · exact .inl ⟨f, rfl⟩
  | out a =>
    obtain ⟨x, hx, rfl⟩ | ⟨f, rfl⟩ := execOut_cases h
    · exact .inr (.inr (.inr (.inr (.inl ⟨a, x, rfl, hx, rfl⟩))))
    · exact .inl ⟨f, rfl⟩
  | jnz a b =>
    obtain ⟨y, hr, hy, rfl⟩ | rfl | ⟨f, rfl⟩ := execJnz_cases h
    · exact .inr (.inr (.inr (.inr (.inr (.inl ⟨a, b, _, .inl rfl, .inr ⟨y, hr, hy, rfl⟩, rfl⟩)))))
    · exact .inr (.inr (.inr (.inr (.inr (.inl ⟨a, b, _, .inl rfl, .inl rfl, rfl⟩)))))
    · exact .inl ⟨f, rfl⟩
  | jz a b =>
    obtain ⟨y, hr, hy, rfl⟩ | rfl | ⟨f, rfl⟩ := execJz_cases h
    · exact .inr (.inr (.inr (.inr (.inr (.inl ⟨a, b, _, .inr rfl, .inr ⟨y, hr, hy, rfl⟩, rfl⟩)))))
    · exact .inr (.inr (.inr (.inr (.inr (.inl ⟨a, b, _, .inr rfl, .inl rfl, rfl⟩)))))
    · exact .inl ⟨f, rfl⟩
  | arb a =>
    obtain ⟨rb, hr, rfl⟩ | ⟨f, rfl⟩ := execArb_cases h
    · exact .inr (.inr (.inr (.inr (.inr (.inr ⟨a, rb, rfl, hr, rfl⟩)))))
    · exact .inl ⟨f, rfl⟩
  | hlt => exact .inr (.inr (.inl ⟨rfl, (Host.Outcome.next.inj h).symm⟩))

/-- Every way a step can go. -/
theorem step_cases {s t : State} (h : step s = .next t) :
    (s.rs.enabled = false ∧ t = s) ∨
    (s.rs.enabled = true ∧ ∃ f, fetchInstr s.mem s.pc = .error f ∧ t = takeFault s f) ∨
    (s.rs.enabled = true ∧ ∃ i, fetchInstr s.mem s.pc = .ok i ∧ exec i s = .next t) := by
  unfold step at h
  split at h
  · rename_i he
    split at h
    · exact .inr (.inr ⟨he, _, ‹_›, h⟩)
    · exact .inr (.inl ⟨he, _, ‹_›, (Host.Outcome.next.inj h).symm⟩)
  · rename_i he
    exact .inl ⟨by simpa using he, (Host.Outcome.next.inj h).symm⟩

/-- A run of one step more, its first step answering. -/
theorem runSteps_succ {s t : State} (k : Nat) (h : step s = .next t) : runSteps (k + 1) s = runSteps k t := by
  simp only [runSteps, h]

end Sys2Proof.Machine
end

