-- ==== Sys2Proof/Laws/HostInterface.lean ====
section
/-! SUPPORT. Laws/HostInterface: what each host transaction that changes the state can answer, said once. -/

namespace Sys2Proof.Machine

/-- All that a `RESET` that answers can be. -/
theorem hostReset_next {image input0 : List Int} {s t : State} {reply : Reply}
    (h : hostReset image input0 s = .next (t, reply)) :
    (image.length : Int) ≤ Config.WMAX s.params ∧ AllWords s.params image ∧ AllWords s.params input0 ∧
      t = resetWith s.params image input0 ∧ reply = .nothing := by
  unfold hostReset at h
  split at h
  · split at h
    · rename_i hsize hwords
      injection h with h
      injection h with h1 h2
      exact ⟨hsize, hwords.1, hwords.2, h1.symm, h2.symm⟩
    · cases h
  · cases h

/-- All that a `STEP` that answers can be. -/
theorem hostStep_next {s t : State} {reply : Reply} (h : hostStep s = .next (t, reply)) :
    step s = .next t ∧ reply = .runState t.rs := by
  unfold hostStep at h
  split at h
  · rename_i u hu
    injection h with h
    injection h with h1 h2
    subst h1
    exact ⟨hu, h2.symm⟩
  · cases h
  · cases h

/-- All that a `PUSH_INPUT` that answers can be. -/
theorem hostPushInput_next {v : Int} {s t : State} {reply : Reply} (h : hostPushInput v s = .next (t, reply)) :
    Word.InRange s.params v ∧ t = { s with inq := s.inq ++ [v] } ∧ reply = .nothing := by
  unfold hostPushInput at h
  split at h
  · rename_i hv
    injection h with h
    injection h with h1 h2
    exact ⟨hv, h1.symm, h2.symm⟩
  · cases h

/-- All that a `POP_OUTPUT` that answers can be. -/
theorem hostPopOutput_next {s t : State} {reply : Reply} (h : hostPopOutput s = .next (t, reply)) :
    (s.outq = [] ∧ t = s ∧ reply = .empty) ∨
    ∃ v rest, s.outq = v :: rest ∧ t = { s with outq := rest } ∧ reply = .word v := by
  unfold hostPopOutput at h
  split at h
  · injection h with h
    injection h with h1 h2
    exact .inl ⟨‹_›, h1.symm, h2.symm⟩
  · injection h with h
    injection h with h1 h2
    exact .inr ⟨_, _, ‹_›, h1.symm, h2.symm⟩

/-- All that a `MEM_READ` that answers can be. -/
theorem hostMemRead_next {a : Int} {s t : State} {reply : Reply} (h : hostMemRead a s = .next (t, reply)) :
    t = s ∧ ∃ v, memRead s.mem a = .ok v ∧ reply = .word v := by
  unfold hostMemRead at h
  split at h
  · injection h with h
    injection h with h1 h2
    exact ⟨h1.symm, _, ‹_›, h2.symm⟩
  · cases h

/-- All that a `MEM_WRITE` that answers can be. -/
theorem hostMemWrite_next {a v : Int} {s t : State} {reply : Reply} (h : hostMemWrite a v s = .next (t, reply)) :
    Word.InRange s.params v ∧ ∃ m, memWrite s.mem a v = .ok m ∧ t = { s with mem := m } ∧ reply = .nothing := by
  unfold hostMemWrite at h
  split at h
  · split at h
    · rename_i hm hv
      injection h with h
      injection h with h1 h2
      exact ⟨hv, _, hm, h1.symm, h2.symm⟩
    · cases h
  · cases h

end Sys2Proof.Machine
end

