-- ==== Sys2Proof/Laws/PerInstr.lean ====
section
/-! SUPPORT. Laws/PerInstr: statements about every instruction, one lemma per constructor. -/

namespace Sys2Proof.Laws.EncodedLength

/-- An instruction is encoded in as many cells as its length. R41, R45 (30_encoding.md). -/
def Statement (i : Instr) : Prop := (encode i).length = i.length

theorem add (a b dest : Operand) : Statement (.add a b dest) := rfl
theorem mul (a b dest : Operand) : Statement (.mul a b dest) := rfl
theorem inp (dest : Operand) : Statement (.inp dest) := rfl
theorem out (a : Operand) : Statement (.out a) := rfl
theorem jnz (a b : Operand) : Statement (.jnz a b) := rfl
theorem jz (a b : Operand) : Statement (.jz a b) := rfl
theorem lt (a b dest : Operand) : Statement (.lt a b dest) := rfl
theorem eq (a b dest : Operand) : Statement (.eq a b dest) := rfl
theorem arb (a : Operand) : Statement (.arb a) := rfl
theorem hlt : Statement .hlt := rfl

end Sys2Proof.Laws.EncodedLength
end

