-- ==== Sys2Proof/Tests/Slice0.lean ====
section
/-! SUPPORT. Tests/Slice0: the well-formedness smoke tests, decoding of words written out from the spec's encoding, the
spec's own vectors (95_test_vectors.md, their ids in the comments), and a witness for the hypotheses of every statement. -/

namespace Sys2Proof.Tests

open Sys2Proof Sys2Proof.Machine Sys2Proof.Spec

/-! ### Helpers -/

/-- The reset state of an image and an input batch written as integers. -/
def start (image : List Int) (input : List Int := []) : State := resetWith Config.hardware image input

/-- The next state, where there is one. -/
def nextOf {σ : Type} : Host.Outcome σ Fault Refusal → Option σ
  | .next t => some t
  | .fault _ => none
  | .refused _ => none

theorem eq_next_of_nextOf {σ : Type} {o : Host.Outcome σ Fault Refusal} {t : σ} (h : nextOf o = some t) : o = .next t := by
  cases o <;> cases h
  rfl

/-- A closed check of the next state gives the next state. -/
theorem exists_next {σ : Type} {o : Host.Outcome σ Fault Refusal} {p : σ → Bool} (h : (nextOf o).any p = true) :
    ∃ t, o = .next t ∧ p t = true := by
  cases o with
  | next t => exact ⟨t, rfl, h⟩
  | fault r => cases h
  | refused r => cases h

/-- What a vector of the spec gives after one step: run-state, `pc`, and the word of one cell. -/
def seen (s : State) (a : Int) : Option (RunState × Nat × Option Int) :=
  (nextOf (step s)).map fun t => (t.rs, t.pc, (memRead t.mem a).toOption)

/-- What a faulting vector gives after one step: run-state, cause code, `fpc`, `fval`, and `pc`. -/
def faulted (s : State) : Option (RunState × Nat × Nat × Int × Nat) :=
  (nextOf (step s)).map fun t => (t.rs, causeCode t.fcause, t.fpc, t.fval, t.pc)

/-! ### Well-formedness: an ill-formed term for each constructor with a write operand -/

theorem test_illformed_add : ¬ (Instr.add (.imm 1) (.imm 1) (.imm 5)).WellFormed Config.hardware := by decide
theorem test_illformed_mul : ¬ (Instr.mul (.imm 1) (.imm 1) (.imm 5)).WellFormed Config.hardware := by decide
theorem test_illformed_lt : ¬ (Instr.lt (.imm 1) (.imm 1) (.imm 5)).WellFormed Config.hardware := by decide
theorem test_illformed_eq : ¬ (Instr.eq (.imm 1) (.imm 1) (.imm 5)).WellFormed Config.hardware := by decide
theorem test_illformed_in : ¬ (Instr.inp (.imm 3)).WellFormed Config.hardware := by decide
/-- A word needs one bit more than the core has. -/
theorem test_illformed_operand_word :
    ¬ (Instr.out (.imm 9223372036854775808)).WellFormed Config.hardware ∧
      (Instr.out (.imm 9223372036854775808)).WellFormed ⟨65, by decide⟩ := by decide
theorem test_wellformed_in : (Instr.inp (.rel (-2))).WellFormed Config.hardware := by decide

/-! ### Decoding: words written out digit by digit from the opcode table and 95_test_vectors.md 2.7 -/

/-- `21107`, `1002`, ... as the spec decodes them; the rest of the list is left. -/
theorem test_decode_add : decode [1101, 5, -7, 5, 99] = .ok (.add (.imm 5) (.imm (-7)) (.pos 5), [99]) := by decide
theorem test_decode_mul : decode [1002, 4, 3, 4, 33] = .ok (.mul (.pos 4) (.imm 3) (.pos 4), [33]) := by decide
theorem test_decode_in : decode [203, -2] = .ok (.inp (.rel (-2)), []) := by decide
theorem test_decode_out : decode [204, 1] = .ok (.out (.rel 1), []) := by decide
theorem test_decode_jnz : decode [2105, 1, 4] = .ok (.jnz (.imm 1) (.rel 4), []) := by decide
theorem test_decode_jz : decode [2106, 0, 2] = .ok (.jz (.imm 0) (.rel 2), []) := by decide
theorem test_decode_lt : decode [21107, 1, 2, 3] = .ok (.lt (.imm 1) (.imm 2) (.rel 3), []) := by decide
theorem test_decode_eq : decode [22208, 1, 2, 3] = .ok (.eq (.rel 1) (.rel 2) (.rel 3), []) := by decide
theorem test_decode_arb : decode [109, 10] = .ok (.arb (.imm 10), []) := by decide
theorem test_decode_hlt : decode [99] = .ok (.hlt, []) := by decide

/-- R52's own examples of assembly. -/
theorem test_encode_mul : encode (.mul (.pos 4) (.imm 3) (.pos 4)) = [1002, 4, 3, 4] := by decide
theorem test_encode_add : encode (.add (.imm (-1)) (.rel 5) (.rel (-2))) = [22101, -1, 5, -2] := by decide
theorem test_assembly_add : (Instr.add (.imm (-1)) (.rel 5) (.rel (-2))).assembly = "ADD #-1, [rb+5], [rb-2]" := by decide

/-- H5, H4: a negative word, and zero padding. -/
theorem test_refuse_negative : decode [-1] = .error (.unknownOpcode (-1)) := by decide
theorem test_refuse_padding : decode [0] = .error (.unknownOpcode 0) := by decide
/-- H19: operand 1's digit is checked before operand 3's word is fetched. -/
theorem test_refuse_mode_before_missing : decode [901, 0, 0] = .error (.unknownMode 9) := by decide
/-- H3, H12. -/
theorem test_refuse_excess_hlt : decode [10099] = .error (.reservedModeDigits 10099) := by decide
theorem test_refuse_excess_out : decode [1104, 5] = .error (.reservedModeDigits 1104) := by decide

/-! ### The host's words: the table's match value alone is the word with all modes positional and operand words 0 -/

theorem test_table_word_out : decodeTableWord 8 4 = some (.out (.pos 0)) := by decide
theorem test_table_word_negative : decodeTableWord 64 18446744073709551615 = none := by decide
theorem test_fetch_word_runs_mul : seen (State.reset.withFetchWord 8 2) 0 = some (.running, 4, some 4) := by decide
theorem test_fetch_word_runs_hlt : seen (State.reset.withFetchWord 8 99) 0 = some (.halted, 1, some 99) := by decide

/-! ### The spec's vectors, at most two an instruction -/

/-- A3. -/
theorem test_A3_add_relative :
    seen { start [2201, 1, 2, 3, 99, 0, 0, 0, 30, 12, 0, 0] with rb := 7 } 3 = some (.running, 4, some 42) := by decide
/-- A4. -/
theorem test_A4_add_overflow :
    faulted (start [1101, 9223372036854775807, 1, 5, 99, 0]) = some (.faulted, 6, 0, 9223372036854775808, 0) := by decide
/-- A4 at `XLEN = 65` (R5): the same sum is a word there. -/
theorem test_A4_at_65_bits :
    seen { start [1101, 9223372036854775807, 1, 5, 99, 0] with params := ⟨65, by decide⟩ } 5 =
      some (.running, 4, some 9223372036854775808) := by decide
/-- M3. -/
theorem test_M3_mul_beyond_32_bits :
    seen (start [1102, 34915192, 34915192, 5, 99, 0]) 5 = some (.running, 4, some 1219070632396864) := by decide
/-- M5. -/
theorem test_M5_mul_overflow :
    faulted (start [1102, -9223372036854775808, -1, 5, 99, 0]) = some (.faulted, 6, 0, 9223372036854775808, 0) := by decide
/-- I2. -/
theorem test_I2_in_relative :
    (nextOf (step { start [203, -2, 99, 0, 0] [5] with rb := 6 })).map
      (fun t => ((memRead t.mem 4).toOption, t.inq, t.pc)) = some (some 5, [], 2) := by decide
/-- I4. -/
theorem test_I4_in_immediate_keeps_queue :
    (nextOf (step (start [103, 3, 99, 0] [9]))).map (fun t => (causeCode t.fcause, t.fval, t.inq, t.pc)) =
      some (4, 3, [9], 0) := by decide
/-- O3. -/
theorem test_O3_out_relative :
    (nextOf (step { start [204, 1, 99, 0, 0, 0, 44] with rb := 5 })).map (fun t => t.outq) = some [44] := by decide
/-- O5. -/
theorem test_O5_out_below_zero : faulted { start [204, -6, 99] with rb := 5 } = some (.faulted, 5, 0, -1, 0) := by decide
/-- J4. -/
theorem test_J4_jnz_target_from_memory : seen (start [5, 5, 6, 99, 99, 3, 4]) 0 = some (.running, 4, some 5) := by decide
/-- J10. -/
theorem test_J10_jnz_untaken_loads_target : faulted (start [105, 0, 50, 99]) = some (.faulted, 5, 0, 50, 0) := by decide
/-- J12. -/
theorem test_J12_jz_relative :
    seen { start [2106, 0, 2, 99, 99, 7, 3] with rb := 3 } 0 = some (.running, 7, some 2106) := by decide
/-- J13. -/
theorem test_J13_jz_negative_not_taken : seen (start [1106, -3, 4, 99, 99]) 0 = some (.running, 3, some 1106) := by decide
/-- L4. -/
theorem test_L4_lt_extremes :
    seen (start [1107, -9223372036854775808, 9223372036854775807, 5, 99, 9]) 5 = some (.running, 4, some 1) := by decide
/-- L3. -/
theorem test_L3_lt_greater : seen (start [1107, 4, 3, 5, 99, 9]) 5 = some (.running, 4, some 0) := by decide
/-- Q3. -/
theorem test_Q3_eq_dest_is_source : seen (start [8, 5, 6, 5, 99, 4, 4]) 5 = some (.running, 4, some 1) := by decide
/-- Q5. -/
theorem test_Q5_eq_store_out_of_bounds : faulted (start [1108, 0, 0, 9, 99, 9]) = some (.faulted, 5, 0, 9, 0) := by decide
/-- B4. -/
theorem test_B4_arb_relative_uses_old_base :
    (nextOf (step { start [209, 1, 99, 0, 100, 200] with rb := 3 })).map (fun t => (t.rb, t.pc)) =
      some (103, 2) := by decide
/-- B6. -/
theorem test_B6_arb_overflow :
    faulted { start [109, -1, 99] with rb := (-9223372036854775808) } =
      some (.faulted, 6, 0, -9223372036854775809, 0) := by decide
/-- H1. -/
theorem test_H1_hlt : seen (start [99]) 0 = some (.halted, 1, some 99) := by decide
/-- H2. -/
theorem test_H2_hlt_excess : faulted (start [199]) = some (.faulted, 3, 0, 199, 0) := by decide
/-- H10. -/
theorem test_H10_empty_memory : faulted State.reset = some (.faulted, 5, 0, 0, 0) := by decide
/-- H11. -/
theorem test_H11_missing_operand_word : faulted (start [1, 0, 0]) = some (.faulted, 5, 0, 3, 0) := by decide
/-- I3, E5. -/
theorem test_E5_needs_input :
    nextOf (step (start [3, 0, 4, 0, 99])) = some { start [3, 0, 4, 0, 99] with rs := .needsInput } := by decide
/-- I7. -/
theorem test_I7_decode_fault_before_needs_input : faulted (start [3]) = some (.faulted, 5, 0, 1, 0) := by decide

/-! ### Witnesses: the hypotheses of each statement are met together, at the edges of their ranges -/

/-- Words that decode, with a rest. -/
theorem witness_DecodedWordsAreTheEncoding : ∃ i rest, decode [22208, 1, 2, 3, 4] = .ok (i, rest) :=
  ⟨.eq (.rel 1) (.rel 2) (.rel 3), [4], by decide⟩

theorem witness_DecoderClassifiesEveryWord_negative : (-1 : Int) < 0 := by decide
theorem witness_DecoderClassifiesEveryWord_opcode :
    (0 : Int) ≤ 0 ∧ (0 : Int).toNat % 100 ∉ legalOpcodes ∧ (0 : Int) ≤ 98 ∧ (98 : Int).toNat % 100 ∉ legalOpcodes := by
  decide
/-- The last operand's digit is 3, the ones before it at most 2. -/
theorem witness_DecoderClassifiesEveryWord_mode :
    (0 : Int) ≤ 32201 ∧ (32201 : Int).toNat % 100 ∈ legalOpcodes ∧
      (∀ j < 3, 1 ≤ j → decimalDigit (j + 1) (32201 : Int).toNat ≤ 2) ∧ 2 < decimalDigit 4 (32201 : Int).toNat := by
  decide
theorem witness_DecoderClassifiesEveryWord_excess :
    (0 : Int) ≤ 122201 ∧ (122201 : Int).toNat % 100 ∈ legalOpcodes ∧
      (∀ j ≤ 3, 1 ≤ j → decimalDigit (j + 1) (122201 : Int).toNat ≤ 2) ∧ (122201 : Int).toNat / 10 ^ (2 + 3) ≠ 0 := by
  decide
theorem witness_DecoderClassifiesEveryWord_legal :
    (0 : Int) ≤ 22208 ∧ (22208 : Int).toNat % 100 ∈ legalOpcodes ∧
      (∀ j ≤ 3, 1 ≤ j → decimalDigit (j + 1) (22208 : Int).toNat ≤ 2) ∧ (22208 : Int).toNat / 10 ^ (2 + 3) = 0 := by
  decide
theorem witness_LegalInstructionWordsAreExactly136 :
    99 ∈ legalOpcodes ∧ 0 ∈ modeNumbers (operandCount 99) ∧ (1 : Nat) ≠ 0 ∧
      (199 : Int) = ((99 + 100 * 0 + 10 ^ (2 + operandCount 99) * 1 : Nat) : Int) := by decide
theorem witness_FetchedInstruction_raises :
    pseudoDecode (start [1, 0, 0]).mem 0 0 = .error ⟨.memoryBounds, 3⟩ := by decide
theorem witness_FetchedInstruction_answers :
    pseudoDecode (start [204, -2]).mem 0 7 = .ok (4, [.rel 5], 2) := by decide

theorem witness_AccessOutsideMemory : (-1 : Int) < 0 ∧ ((start [99]).mem.size : Int) ≤ 1 := by decide
theorem witness_AccessInsideMemory : (0 : Int) ≤ 0 ∧ (0 : Int) < (start [99]).mem.size := by decide
theorem witness_MemoriesWithTheSameCellsAreEqual :
    (start [99, 0, 5]).mem.wf = true ∧ ∀ a, memRead (start [99, 0, 5]).mem a = memRead (start [99, 0, 5]).mem a :=
  ⟨by decide, fun _ => rfl⟩
theorem witness_ResetLoadsTheImage :
    (([(99 : Int)].length : Nat) : Int) ≤ Config.WMAX Config.hardware ∧ [(99 : Int)][0]? = some 99 ∧
      AllWords Config.hardware [-9223372036854775808, 9223372036854775807] := by decide
theorem witness_ReadOperand_raises :
    readOperand (start [99]).mem (.rel (-1)) = .error ⟨.memoryBounds, -1⟩ := by decide
theorem witness_RelativeSumOutsideWords :
    let s := { start [204, 1] with rb := 9223372036854775807 }
    Word.InRange s.params s.rb ∧ Word.InRange s.params 1 ∧
      (s.mem.size : Int) ≤ Config.WMAX s.params ∧ ¬ Word.InRange s.params (s.rb + 1) ∧
      Operand.rel 1 ∈ (Instr.out (.rel 1)).operands ∧ { s with inq := [5] }.inq = [5] := by decide

theorem witness_StepRunsTheDecodedInstruction :
    (start [99]).rs.enabled = true ∧ fetchInstr (start [99]).mem (start [99]).pc = .ok .hlt := by decide
theorem witness_StepRunsTheInstructionWhoseWordsStandAtPc :
    (start [99]).rs.enabled = true ∧ ∀ (k : Nat) (v : Int), (encode .hlt)[k]? = some v →
      memRead (start [99]).mem (((start [99]).pc : Int) + k) = .ok v := by
  refine ⟨by decide, fun k v h => ?_⟩
  cases k with
  | zero =>
    cases h
    decide
  | succ k => simp [encode, Instr.operands] at h
theorem witness_StepsInTerminalStates :
    { start [99] with rs := .halted }.rs = .halted ∧ { start [0] with rs := .faulted }.rs = .faulted := by decide
theorem witness_FaultsArePrecise :
    ∃ t, step (start [0]) = .next t ∧ decide (t.rs = .faulted) = true := exists_next (by decide)
theorem witness_FaultsArePrecise_decode :
    fetchInstr (start [303, 1]).mem (start [303, 1]).pc = .error ⟨.unknownMode, 3⟩ := by decide
theorem witness_OnlyResetLeavesFaulted :
    let s : State := { start [0] with rs := .faulted, fcause := some .unknownOpcode }
    s.rs = .faulted ∧ ∃ t, transact (.memWrite 0 99) s = .next t ∧ (fun _ => true) t = true :=
  ⟨by decide, exists_next (by decide)⟩
theorem witness_OnlyResetLeavesFaulted_before :
    ∃ t, transact .step (start [104, 7]) = .next t ∧ decide (t.1.rs ≠ .faulted) = true := exists_next (by decide)
theorem witness_OnlyHltReachesHalted :
    ∃ t, step (start [99]) = .next t ∧ decide (t.rs = .halted) = true := exists_next (by decide)
theorem witness_RunState_reset :
    ∃ t, transact (.reset [99] []) State.reset = .next t ∧ (fun _ => true) t = true := exists_next (by decide)
theorem witness_RunState_step_disabled :
    ∃ t, transact .step { start [99] with rs := .halted } = .next t ∧ decide (t.1.rs.enabled = false) = true :=
  exists_next (by decide)
theorem witness_RunState_step_decode_raises :
    fetchInstr (start [98]).mem 0 = .error ⟨.unknownOpcode, 98⟩ ∧
      ∃ t, transact .step (start [98]) = .next t ∧ (fun _ => true) t = true := ⟨by decide, exists_next (by decide)⟩
theorem witness_RunState_step_in :
    fetchInstr (start [3, 0]).mem 0 = .ok (.inp (.pos 0)) ∧ (start [3, 0]).inq = [] ∧
      ∃ t, transact .step (start [3, 0]) = .next t ∧ (fun _ => true) t = true :=
  ⟨by decide, by decide, exists_next (by decide)⟩
theorem witness_RunState_step_hlt :
    fetchInstr (start [99]).mem 0 = .ok .hlt ∧
      ∃ t, transact .step (start [99]) = .next t ∧ (fun _ => true) t = true := ⟨by decide, exists_next (by decide)⟩
theorem witness_RunState_step_other :
    fetchInstr (start [104, 7]).mem 0 = .ok (.out (.imm 7)) ∧
      ∃ t, transact .step (start [104, 7]) = .next t ∧ (fun _ => true) t = true := ⟨by decide, exists_next (by decide)⟩
theorem witness_RunState_other_transaction :
    ∃ t, transact (.pushInput 5) (start [99]) = .next t ∧ (fun _ => true) t = true := exists_next (by decide)
theorem witness_EmptyInputQueuePauses :
    (start [3, 0]).rs.enabled = true ∧ fetchInstr (start [3, 0]).mem (start [3, 0]).pc = .ok (.inp (.pos 0)) ∧
      (start [3, 0]).inq = [] := by decide
theorem witness_EmptyInputQueuePauses_decode :
    (start [3]).rs.enabled = true ∧ fetchInstr (start [3]).mem (start [3]).pc = .error ⟨.memoryBounds, 1⟩ ∧
      (start [3]).inq = [] := by decide
theorem witness_EmptyInputQueuePauses_bad_operand :
    let s := start [103, 3] [9]
    s.rs.enabled = true ∧ fetchInstr s.mem s.pc = .ok (.inp (.imm 3)) ∧ s.inq = [9] ∧
      storeOperand s.mem (locate s.rb (.imm 3)) 9 = .error ⟨.writeToImmediate, 3⟩ := by decide
theorem witness_PushedInputResumes :
    let s := { start [3, 1] with rs := .needsInput }
    s.mem.wf = true ∧ Word.InRange s.params (-9223372036854775808) ∧ s.rs = .needsInput ∧ s.inq = [] ∧ fetchInstr s.mem s.pc = .ok (.inp (.pos 1)) ∧
      (locate s.rb (.pos 1)).address = some 1 ∧ s.mem.Valid 1 := by decide
/-- A taken jump from cell 0 to itself, and a fall-through to the end of memory. -/
theorem witness_PcAdvances_jump :
    fetchInstr (start [1105, 1, 0]).mem 0 = .ok (.jnz (.imm 1) (.imm 0)) ∧
      ∃ t, step (start [1105, 1, 0]) = .next t ∧ decide (t.rs = .running) = true := ⟨by decide, exists_next (by decide)⟩
theorem witness_PcAdvances_fallthrough :
    fetchInstr (start [104, 7]).mem 0 = .ok (.out (.imm 7)) ∧
      ∃ t, step (start [104, 7]) = .next t ∧ decide (t.rs = .running) = true := ⟨by decide, exists_next (by decide)⟩
/-- H17: the first cell past the end. -/
theorem witness_PcAdvances_beyond_memory :
    let s : State := { start [1101, 1, 1, 0, 99] with pc := 5 }
    s.rs.enabled = true ∧ s.mem.size ≤ s.pc ∧ ∃ t, step s = .next t ∧ (fun _ => true) t = true :=
  ⟨by decide, by decide, exists_next (by decide)⟩
theorem witness_PcAdvances_needs_input :
    ∃ t, step (start [3, 0]) = .next t ∧ decide (t.rs = .needsInput) = true := exists_next (by decide)

/-- The hypotheses of `StoresResult` for ADD, MUL, LT and EQ, the result at the edge of the word range and the destination
in the last cell. -/
theorem witness_StoresResult :
    let s := start [1101, 9223372036854775807, 0, 4, 0]
    s.mem.wf = true ∧ readOperand s.mem (locate s.rb (.imm 9223372036854775807)) = .ok 9223372036854775807 ∧
      readOperand s.mem (locate s.rb (.pos 2)) = .ok 0 ∧
      Word.InRange s.params (9223372036854775807 + 0) ∧ Word.InRange s.params (9223372036854775807 * 0) ∧
      Word.InRange s.params (if (9223372036854775807 : Int) < 0 then 1 else 0) ∧
      Word.InRange s.params (if (9223372036854775807 : Int) = 0 then 1 else 0) ∧
      (locate s.rb (.rel 4)).address = some 4 ∧ s.mem.Valid 4 := by decide
/-- The three relations of R84 at the extremes. -/
theorem witness_Comparisons_relations :
    (-9223372036854775808 : Int) < 9223372036854775807 ∧ (0 : Int) = 0 ∧
      (-9223372036854775808 : Int) < -9223372036854775807 := by decide
/-- Load faults: one cell below and one past memory. -/
theorem witness_FaultsInOrder_loads :
    let s := start [1, 5, 5, 5, 0]
    (locate s.rb (.pos 5)).address = some 5 ∧ ¬ s.mem.Valid 5 ∧
      (locate s.rb (.rel (-1))).address = some (-1) ∧ ¬ s.mem.Valid (-1) ∧
      readOperand s.mem (locate s.rb (.imm 1)) = .ok 1 := by decide
/-- Overflow: the least sum and product that are no word; both fit 65 bits. -/
theorem witness_FaultsInOrder_overflow :
    ¬ Word.InRange Config.hardware (9223372036854775807 + 1) ∧
      ¬ Word.InRange Config.hardware (4294967296 * 2147483648) ∧
      Config.fvalMin Config.hardware ≤ 9223372036854775807 + 1 ∧
      9223372036854775807 + 1 ≤ Config.fvalMax Config.hardware := by decide
/-- Store faults: an immediate, and one cell past memory. -/
theorem witness_FaultsInOrder_stores :
    let s := start [1101, 1, 1, 4]
    readOperand s.mem (locate s.rb (.imm 1)) = .ok 1 ∧ Word.InRange s.params (1 + 1) ∧
      Operand.imm 5 = .imm 5 ∧ (locate s.rb (.pos 4)).address = some 4 ∧ ¬ s.mem.Valid 4 := by decide
theorem witness_InStoresTheHead :
    let s := start [3, 1] [-7, 8]
    s.mem.wf = true ∧ s.inq = (-7) :: [8] ∧ (locate s.rb (.pos 1)).address = some 1 ∧ s.mem.Valid 1 := by decide
theorem witness_InFaults :
    let s := start [3, 2] [9]
    s.inq ≠ [] ∧ (locate s.rb (.pos 2)).address = some 2 ∧ ¬ s.mem.Valid 2 := by decide
theorem witness_Out :
    let s := start [4, 0]
    readOperand s.mem (locate s.rb (.pos 0)) = .ok 4 ∧
      (locate s.rb (.pos 2)).address = some 2 ∧ ¬ s.mem.Valid 2 := by decide
/-- JNZ taken and not taken, JZ taken and not taken, to cell 0, and the `PcRange` clauses. -/
theorem witness_Jumps :
    let s := start [1105, 1, 0]
    readOperand s.mem (locate s.rb (.imm (-1))) = .ok (-1) ∧
      readOperand s.mem (locate s.rb (.imm 0)) = .ok 0 ∧
      (-1 : Int) ≠ 0 ∧ (0 : Int) = 0 ∧ (0 : Int) ≤ 0 ∧ (-1 : Int) < 0 := by decide
theorem witness_JumpBeyondMemory :
    let s := start [1105, 1, 3]
    s.rs.enabled = true ∧ fetchInstr s.mem s.pc = .ok (.jnz (.imm 1) (.imm 3)) ∧ (1 : Int) ≠ 0 ∧
      readOperand s.mem (locate s.rb (.imm 1)) = .ok 1 ∧
      readOperand s.mem (locate s.rb (.imm 3)) = .ok 3 ∧ (s.mem.size : Int) ≤ 3 := by decide
theorem witness_JumpBeyondMemory_jz :
    let s := start [1106, 0, 3]
    s.rs.enabled = true ∧ fetchInstr s.mem s.pc = .ok (.jz (.imm 0) (.imm 3)) ∧ (0 : Int) = 0 ∧
      readOperand s.mem (locate s.rb (.imm 0)) = .ok 0 ∧
      readOperand s.mem (locate s.rb (.imm 3)) = .ok 3 ∧ (s.mem.size : Int) ≤ 3 := by decide
theorem witness_Arb :
    let s := { start [109, 1] with rb := 9223372036854775806 }
    readOperand s.mem (locate s.rb (.imm 1)) = .ok 1 ∧ Word.InRange s.params (s.rb + 1) ∧ Word.InRange s.params s.rb ∧ Word.InRange s.params 2 ∧
      readOperand s.mem (locate s.rb (.imm 2)) = .ok 2 ∧ ¬ Word.InRange s.params (s.rb + 2) ∧
      (locate s.rb (.pos 2)).address = some 2 ∧ ¬ s.mem.Valid 2 := by decide
/-- P4: the ADD writes the 99 that runs next. -/
theorem witness_StoredWordIsTheNextInstruction :
    let s := start [1101, 50, 49, 4, 0]
    s.mem.wf = true ∧ s.rs.enabled = true ∧
      fetchInstr s.mem s.pc = .ok (.add (.imm 50) (.imm 49) (.pos 4)) ∧
      readOperand s.mem (locate s.rb (.imm 50)) = .ok 50 ∧
      readOperand s.mem (locate s.rb (.imm 49)) = .ok 49 ∧ (50 : Int) + 49 = 99 ∧
      (locate s.rb (.pos 4)).address = some ((s.pc : Int) + 4) ∧ s.mem.Valid ((s.pc : Int) + 4) := by decide
/-- The cell stored to is an operand word of the OUT that follows, or a cell apart from it. -/
theorem witness_StoredWord_any :
    let s := start [1101, 50, 49, 5, 104, 0] []
    (Instr.add (.imm 50) (.imm 49) (.pos 5)).dest = some (.pos 5) ∧ (locate s.rb (.pos 5)).address = some 5 ∧
      fetchInstr s.mem s.pc = .ok (.add (.imm 50) (.imm 49) (.pos 5)) ∧
      (∃ t, step s = .next t ∧ decide (t.rs = .running) = true) ∧
      ∀ (k : Nat) (v : Int), (encode (.out (.imm 99)))[k]? = some v →
        if ((s.pc + 4 + k : Nat) : Int) = 5 then v = 99 else memRead s.mem ((s.pc + 4 + k : Nat) : Int) = .ok v := by
  refine ⟨by decide, by decide, by decide, exists_next (by decide), fun k v h => ?_⟩
  rcases k with _ | _ | k
  · cases h
    decide
  · cases h
    decide
  · simp [encode, Instr.operands] at h
theorem witness_StoredWord_host :
    let s := start [104, 0]
    (∃ t, transact (.memWrite 1 7) s = .next t ∧ (fun _ => true) t = true) ∧
      ∀ (k : Nat) (v : Int), (encode (.out (.imm 7)))[k]? = some v →
        if ((s.pc + k : Nat) : Int) = 1 then v = 7 else memRead s.mem ((s.pc + k : Nat) : Int) = .ok v := by
  refine ⟨exists_next (by decide), fun k v h => ?_⟩
  rcases k with _ | _ | k
  · cases h
    decide
  · cases h
    decide
  · simp [encode, Instr.operands] at h
theorem witness_StoringFrame :
    (Instr.inp (.pos 1)).dest = some (.pos 1) ∧ (locate 0 (.pos 1)).address = some 1 ∧
      ∃ t, exec (.inp (.pos 1)) (start [3, 1] [9]) = .next t ∧ decide (t.rs = .running) = true :=
  ⟨by decide, by decide, exists_next (by decide)⟩
theorem witness_StoringFrame_immediate : (locate 0 (.imm 1)).address = none := by decide
theorem witness_OtherFrame :
    (Instr.out (.imm 7)).dest = none ∧
      ∃ t, exec (.out (.imm 7)) (start [104, 7]) = .next t ∧ decide (t.rs ≠ .faulted) = true :=
  ⟨by decide, exists_next (by decide)⟩
theorem witness_OnlyArbAndReset :
    ∃ t, transact .step (start [109, 5]) = .next t ∧ decide (t.1.rb ≠ (start [109, 5]).rb) = true :=
  exists_next (by decide)
theorem witness_OnlyArbAndReset_first_arb :
    let s := start [209, -1, 9]
    s.rb = 0 ∧ readOperand s.mem (locate s.rb (.rel 2)) = .ok 9 ∧ Word.InRange s.params 9 := by decide
theorem witness_OnlyArbAndReset_store :
    ∃ m', (start [9, 9]).mem.wf = true ∧ storeOperand (start [9, 9]).mem (locate 3 (.rel (-2))) 0 = .ok m' :=
  ⟨(start [9, 0]).mem, by decide, by decide⟩
theorem witness_MemorySizeIsFixed :
    (∃ t, transact .step (start [99]) = .next t ∧ (fun _ => true) t = true) ∧ ((start [99]).mem.size : Int) ≤ 1 :=
  ⟨exists_next (by decide), by decide⟩
/-- Two states that differ in `outq`, `rs` and `fval`. -/
theorem witness_StepDependsOnly :
    let s1 := start [104, 7]
    let s2 := { start [104, 7] with outq := [1], rs := .needsInput, fval := 5 }
    s1.params = s2.params ∧ s1.mem = s2.mem ∧ s1.pc = s2.pc ∧ s1.rb = s2.rb ∧ s1.inq = s2.inq ∧ s1.rs.enabled = true ∧ s2.rs.enabled = true ∧
      (∃ t, step s1 = .next t ∧ decide (t.rs ≠ .faulted) = true) ∧ ∃ t, step s2 = .next t ∧ decide (t.rs ≠ .faulted) = true :=
  ⟨by decide, by decide, by decide, by decide, by decide, by decide, by decide, exists_next (by decide),
    exists_next (by decide)⟩
theorem witness_StepDependsOnly_faulted :
    ∃ t, step (start [0]) = .next t ∧ decide (t.rs = .faulted) = true := exists_next (by decide)
/-- A history in which a word is fed, received by an IN, and emitted by an OUT. -/
theorem witness_QueuesAreFirstInFirstOut :
    ∃ s, QueueHistory [9] [9] [9] [9] [] s := by
  have h0 : QueueHistory [9] [9] [] [] [] (start [3, 0, 104, 9, 99] [9]) :=
    .reset ([3, 0, 104, 9, 99]) _ .nothing State.reset (eq_next_of_nextOf (by decide))
  have h1 := QueueHistory.executedIn (t := { start [9, 0, 104, 9, 99] with pc := 2 }) (.pos 0) 0 9 h0
    (by decide) (by decide) (eq_next_of_nextOf (by decide)) (by decide) (by decide) (by decide)
  exact ⟨_, QueueHistory.executedOut (t := { start [9, 0, 104, 9, 99] with pc := 4, outq := [9] }) (.imm 9) 9 h1
    (by decide) (by decide) (eq_next_of_nextOf (by decide)) (by decide) (by decide)⟩
theorem witness_PopOutput : (start [99]).outq = [] ∧ { start [99] with outq := [1, 2] }.outq = 1 :: [2] := by decide
/-- The edges of the word range, and of memory. -/
theorem witness_PushInput :
    Word.InRange (start [99]).params (-9223372036854775808) ∧ ¬ Word.InRange (start [99]).params 9223372036854775808 := by
  decide
theorem witness_HostMemoryAccess :
    (start [99]).mem.wf = true ∧ (start [99]).mem.Valid 0 ∧ ¬ (start [99]).mem.Valid 1 ∧ ¬ (start [99]).mem.Valid (-1) ∧
      Word.InRange (start [99]).params 9223372036854775807 ∧
      ¬ Word.InRange (start [99]).params (-9223372036854775809) := by decide
theorem witness_WordsAreTheSignedIntegers : ∃ t, transact .step (start [99]) = .next t ∧ (fun _ => true) t = true :=
  exists_next (by decide)
/-- Every cell of a memory without listed cells is 0. -/
theorem witness_EveryStepKeepsTheInvariants :
    let s : State := { resetWith Config.hardware [] [9] with mem := ⟨4, [(0, 3), (2, 104)]⟩, rb := -9223372036854775808 }
    s.Inv ∧ ∃ t, step s = .next t ∧ decide (t.rs = .running) = true := by
  refine ⟨⟨by decide, by decide, by decide, fun a v h => ?_, by decide, by decide, by decide, by decide, by decide,
    by decide, by decide⟩, exists_next (by decide)⟩
  have hall : ∀ k < 4, Word.InRange Config.hardware (cellsGet [(0, 3), (2, 104)] k) := by decide
  unfold memRead at h
  split at h
  · rename_i hv
    cases h
    exact hall a.toNat ((Int.toNat_lt hv.1).mpr hv.2)
  · cases h
theorem witness_ReachableStates : Reachable (start [99]) := .reset _ _ _ (by decide) (by decide) (by decide)

end Sys2Proof.Tests
end

section
/-! PROOFS. Width: the words of R5 at every width, and that no transaction changes the width of a core. -/

namespace Sys2Proof

/-- R5's range in the form that Lean's bit vectors have it: the upper bound strict, the powers taken in the integers. -/
theorem Word.inRange_iff_two_pow (p : Config.Params) (x : Int) :
    Word.InRange p x ↔ -2 ^ (p.xlen - 1) ≤ x ∧ x < 2 ^ (p.xlen - 1) := by
  simp only [Word.InRange, Config.WMIN, Config.WMAX, Nat.cast_pow, Nat.cast_ofNat, Int.le_sub_one_iff]

/-- The words are the values of the bit vectors of the width: a word is its own low `XLEN` bits, read back signed. -/
theorem Word.inRange_iff_exists_toInt (p : Config.Params) (x : Int) :
    Word.InRange p x ↔ ∃ b : BitVec p.xlen, b.toInt = x := by
  rw [Word.inRange_iff_two_pow]
  constructor
  · rintro ⟨hlow, hhigh⟩
    have hpos : 0 < p.xlen := Nat.lt_of_lt_of_le (by decide) p.atLeast64
    exact ⟨BitVec.ofInt p.xlen x, BitVec.toInt_ofInt_eq_self hpos hlow hhigh⟩
  · rintro ⟨b, rfl⟩
    exact ⟨b.le_toInt, b.toInt_lt⟩

end Sys2Proof

namespace Sys2Proof.Machine

/-- No instruction writes the width. -/
theorem exec_params {i : Instr} {s t : State} (h : exec i s = .next t) : t.params = s.params := by
  obtain ⟨_, rfl⟩ | ⟨_, _, _, rfl⟩ | ⟨_, rfl⟩ | ⟨_, _, _, _, _, _, _, _, _, _, _, rfl⟩ | ⟨_, _, _, _, rfl⟩ |
    ⟨_, _, _, _, _, rfl⟩ | ⟨_, _, _, _, rfl⟩ := exec_cases h <;> simp

/-- A step leaves the width as it is: disabled, taking a fault of the fetch or the decoder, or executing. -/
theorem step_params {s t : State} (h : step s = .next t) : t.params = s.params := by
  obtain ⟨-, rfl⟩ | ⟨-, f, -, rfl⟩ | ⟨-, i, -, hexec⟩ := step_cases h
  · rfl
  · exact takeFault_params s f
  · exact exec_params hexec

/-- `RESET` builds a core of the same width (R90), `STEP` keeps it, and the other transactions write a queue, a cell or
nothing. -/
theorem transact_params {tx : Transaction} {s t : State} {reply : Reply} (h : transact tx s = .next (t, reply)) :
    t.params = s.params := by
  cases tx with
  | reset image input0 =>
    obtain ⟨-, -, -, rfl, -⟩ := hostReset_next h
    exact resetWith_params s.params image input0
  | step => exact step_params (hostStep_next h).1
  | pushInput v =>
    obtain ⟨-, rfl, -⟩ := hostPushInput_next h
    rfl
  | popOutput =>
    obtain ⟨-, rfl, -⟩ | ⟨_, _, -, rfl, -⟩ := hostPopOutput_next h <;> rfl
  | memRead a =>
    obtain ⟨rfl, -⟩ := hostMemRead_next h
    rfl
  | memWrite a v =>
    obtain ⟨-, _, -, rfl, -⟩ := hostMemWrite_next h
    rfl
  | readInput | readOutput | readStatus =>
    cases h
    rfl

/-- Settles O53: a width is a parameter by its proof of `64 ≤ XLEN`, its words are the bit vectors' values, and every
transaction keeps it. -/
theorem wordsAreTheSignedIntegersOfTheWidth : Obligations.WordsAreTheSignedIntegersOfTheWidth := by
  unfold Obligations.WordsAreTheSignedIntegersOfTheWidth
  refine ⟨?everyWidth, ?words, ?atReset, ?kept⟩
  case everyWidth => exact fun n hn => ⟨⟨n, hn⟩, rfl⟩
  case words => exact fun p => ⟨p.atLeast64, Word.inRange_iff_exists_toInt p⟩
  case atReset => exact ⟨rfl, Config.hardware_bounds⟩
  case kept => exact fun _ _ _ _ h => transact_params h

end Sys2Proof.Machine
end

section
/-! PROOFS. Fetch: the words of a fetched instruction are its encoding, stand in the memory, and end inside it. -/

namespace Sys2Proof

/-! ### What each shape of row decodes to -/

/-- The mode digit of the operand that `digit_k` selects, taken off the front of the digits from `k` on. -/
theorem div_pow_eq_of_decimalDigit {o : Operand} {modes k : Nat} (h : o.modeDigit = decimalDigit k modes) :
    modes / 10 ^ k = o.modeDigit + 10 * (modes / 10 ^ (k + 1)) := by
  rw [h, decimalDigit, pow_succ, ← Nat.div_div_eq_div_mul, Nat.mod_add_div]

theorem decodeForm_zero_ok {w : Int} {modes : Nat} {j i : Instr} {ws rest : List Int}
    (h : decodeForm w modes (.zero j) ws = .ok (i, rest)) : i = j ∧ ws = rest ∧ modes = modesNumber [] := by
  obtain ⟨hexcess, rfl, rfl⟩ := checkExcess_ok h
  exact ⟨rfl, rfl, by simpa [modesNumber] using hexcess⟩

theorem decodeForm_one_ok {w : Int} {modes : Nat} {mk : Operand → Instr} {i : Instr} {ws rest : List Int}
    (h : decodeForm w modes (.one mk) ws = .ok (i, rest)) :
    ∃ a, i = mk a ∧ ws = a.word :: rest ∧ modes = modesNumber [a] := by
  obtain ⟨⟨a, ws1⟩, ha, h⟩ := decodeBind_ok.mp h
  obtain ⟨hexcess, rfl, rfl⟩ := checkExcess_ok h
  obtain ⟨rfl, hda⟩ := decodeOperand_ok ha
  have h0 := div_pow_eq_of_decimalDigit hda
  exact ⟨a, rfl, rfl, by simp only [modesNumber]; omega⟩

theorem decodeForm_two_ok {w : Int} {modes : Nat} {mk : Operand → Operand → Instr} {i : Instr} {ws rest : List Int}
    (h : decodeForm w modes (.two mk) ws = .ok (i, rest)) :
    ∃ a b, i = mk a b ∧ ws = a.word :: b.word :: rest ∧ modes = modesNumber [a, b] := by
  obtain ⟨⟨a, ws1⟩, ha, h⟩ := decodeBind_ok.mp h
  obtain ⟨⟨b, ws2⟩, hb, h⟩ := decodeBind_ok.mp h
  obtain ⟨hexcess, rfl, rfl⟩ := checkExcess_ok h
  obtain ⟨rfl, hda⟩ := decodeOperand_ok ha
  obtain ⟨rfl, hdb⟩ := decodeOperand_ok hb
  have h0 := div_pow_eq_of_decimalDigit hda
  have h1 := div_pow_eq_of_decimalDigit hdb
  exact ⟨a, b, rfl, rfl, by simp only [modesNumber]; omega⟩

theorem decodeForm_three_ok {w : Int} {modes : Nat} {mk : Operand → Operand → Operand → Instr} {i : Instr}
    {ws rest : List Int} (h : decodeForm w modes (.three mk) ws = .ok (i, rest)) :
    ∃ a b c, i = mk a b c ∧ ws = a.word :: b.word :: c.word :: rest ∧ modes = modesNumber [a, b, c] := by
  obtain ⟨⟨a, ws1⟩, ha, h⟩ := decodeBind_ok.mp h
  obtain ⟨⟨b, ws2⟩, hb, h⟩ := decodeBind_ok.mp h
  obtain ⟨⟨c, ws3⟩, hc, h⟩ := decodeBind_ok.mp h
  obtain ⟨hexcess, rfl, rfl⟩ := checkExcess_ok h
  obtain ⟨rfl, hda⟩ := decodeOperand_ok ha
  obtain ⟨rfl, hdb⟩ := decodeOperand_ok hb
  obtain ⟨rfl, hdc⟩ := decodeOperand_ok hc
  have h0 := div_pow_eq_of_decimalDigit hda
  have h1 := div_pow_eq_of_decimalDigit hdb
  have h2 := div_pow_eq_of_decimalDigit hdc
  exact ⟨a, b, c, rfl, rfl, by simp only [modesNumber]; omega⟩

/-! ### What each shape of row makes -/

theorem opForm_zero {op : Nat} {i : Instr} (h : opForm? op = some (.zero i)) : i.opcode = op ∧ i.operands = [] := by
  obtain ⟨rfl, rfl⟩ : op = 99 ∧ i = .hlt := by simpa using opForm_some h
  exact ⟨rfl, rfl⟩

theorem opForm_one {op : Nat} {mk : Operand → Instr} (h : opForm? op = some (.one mk)) (a : Operand) :
    (mk a).opcode = op ∧ (mk a).operands = [a] := by
  obtain ⟨rfl, rfl⟩ | ⟨rfl, rfl⟩ | ⟨rfl, rfl⟩ :
      (op = 3 ∧ mk = .inp) ∨ (op = 4 ∧ mk = .out) ∨ (op = 9 ∧ mk = .arb) := by
    simpa using opForm_some h
  all_goals exact ⟨rfl, rfl⟩

theorem opForm_two {op : Nat} {mk : Operand → Operand → Instr} (h : opForm? op = some (.two mk)) (a b : Operand) :
    (mk a b).opcode = op ∧ (mk a b).operands = [a, b] := by
  obtain ⟨rfl, rfl⟩ | ⟨rfl, rfl⟩ : (op = 5 ∧ mk = .jnz) ∨ (op = 6 ∧ mk = .jz) := by simpa using opForm_some h
  all_goals exact ⟨rfl, rfl⟩

theorem opForm_three {op : Nat} {mk : Operand → Operand → Operand → Instr} (h : opForm? op = some (.three mk))
    (a b c : Operand) : (mk a b c).opcode = op ∧ (mk a b c).operands = [a, b, c] := by
  obtain ⟨rfl, rfl⟩ | ⟨rfl, rfl⟩ | ⟨rfl, rfl⟩ | ⟨rfl, rfl⟩ :
      (op = 1 ∧ mk = .add) ∨ (op = 2 ∧ mk = .mul) ∨ (op = 7 ∧ mk = .lt) ∨ (op = 8 ∧ mk = .eq) := by
    simpa using opForm_some h
  all_goals exact ⟨rfl, rfl⟩

/-- A row that the opcode map selects decodes to an instruction of that opcode, its operand words in operand order, its
mode digits the whole of `modes`. R41, R43, R48. -/
theorem decodeForm_ok {w : Int} {modes op : Nat} {form : OpForm} {i : Instr} {ws rest : List Int}
    (hform : opForm? op = some form) (h : decodeForm w modes form ws = .ok (i, rest)) :
    i.opcode = op ∧ ws = i.operands.map Operand.word ++ rest ∧ modes = modesNumber i.operands := by
  cases form with
  | zero j =>
    obtain ⟨rfl, hws, hmodes⟩ := decodeForm_zero_ok h
    obtain ⟨hop, hos⟩ := opForm_zero hform
    exact ⟨hop, hos ▸ hws, hos ▸ hmodes⟩
  | one mk =>
    obtain ⟨a, rfl, hws, hmodes⟩ := decodeForm_one_ok h
    obtain ⟨hop, hos⟩ := opForm_one hform a
    exact ⟨hop, hos ▸ hws, hos ▸ hmodes⟩
  | two mk =>
    obtain ⟨a, b, rfl, hws, hmodes⟩ := decodeForm_two_ok h
    obtain ⟨hop, hos⟩ := opForm_two hform a b
    exact ⟨hop, hos ▸ hws, hos ▸ hmodes⟩
  | three mk =>
    obtain ⟨a, b, c, rfl, hws, hmodes⟩ := decodeForm_three_ok h
    obtain ⟨hop, hos⟩ := opForm_three hform a b c
    exact ⟨hop, hos ▸ hws, hos ▸ hmodes⟩

/-- Words that decode begin with the encoding of what they decode to. R48, R50. -/
theorem decode_ok_eq_encode {ws rest : List Int} {i : Instr} (h : decode ws = .ok (i, rest)) : ws = encode i ++ rest := by
  cases ws with
  | nil => cases h
  | cons w ws =>
    obtain ⟨form, hform, h⟩ := decode_cons_ok h
    obtain ⟨hw, hop⟩ := formOfWord_some hform
    obtain ⟨hopcode, rfl, hmodes⟩ := decodeForm_ok hop h
    have hword : w = instructionWord i := by
      unfold instructionWord
      omega
    rw [hword]
    rfl

theorem encode_length (i : Instr) : (encode i).length = i.length := by
  simp only [encode, List.length_cons, List.length_map, Instr.length, Nat.add_comm]

/-- The operand words of an instruction are among the words of its encoding. R41. -/
theorem word_mem_encode {i : Instr} {o : Operand} (h : o ∈ i.operands) : o.word ∈ encode i :=
  List.mem_cons_of_mem _ (List.mem_map_of_mem h)

end Sys2Proof

namespace Sys2Proof.Machine

/-- Every word fetched is the word of a cell. -/
theorem memRead_of_mem_fetchWords {m : Memory} {n a : Nat} {v : Int} (h : v ∈ fetchWords m n a) :
    ∃ b, memRead m b = .ok v := by
  induction n generalizing a with
  | zero => cases h
  | succ n ih =>
    cases hr : memRead m a with
    | ok w =>
      rw [fetchWords_succ_of_ok hr] at h
      rcases List.mem_cons.mp h with rfl | h
      · exact ⟨a, hr⟩
      · exact ih h
    | error f =>
      rw [fetchWords_succ_of_error hr] at h
      cases h

/-- The words fetched end inside memory: there are none of them from an address outside it. R27, R41. -/
theorem fetchWords_length_le (m : Memory) (n a : Nat) : (fetchWords m n a).length ≤ m.size - a := by
  induction n generalizing a with
  | zero => exact Nat.zero_le _
  | succ n ih =>
    cases hr : memRead m a with
    | ok w =>
      obtain ⟨⟨-, ha⟩, -⟩ := memRead_ok hr
      have := ih (a + 1)
      rw [fetchWords_succ_of_ok hr, List.length_cons]
      omega
    | error f =>
      rw [fetchWords_succ_of_error hr]
      exact Nat.zero_le _

/-- The words at `pc` begin with the encoding of the instruction fetched there. R54, R60. -/
theorem fetchWords_of_fetchInstr {m : Memory} {pc : Nat} {i : Instr} (h : fetchInstr m pc = .ok i) :
    ∃ rest, fetchWords m maxInstrLength pc = encode i ++ rest :=
  (fetchInstr_ok h).imp fun _ hd => decode_ok_eq_encode hd

/-- The instruction fetched ends inside memory. R12, R105. -/
theorem fetchInstr_end_le {m : Memory} {pc : Nat} {i : Instr} (h : fetchInstr m pc = .ok i) :
    pc + i.length ≤ m.size := by
  obtain ⟨rest, hws⟩ := fetchWords_of_fetchInstr h
  have hle := fetchWords_length_le m maxInstrLength pc
  rw [hws, List.length_append, encode_length] at hle
  have hpos : 0 < i.length := Nat.lt_of_lt_of_le Nat.one_pos (Nat.le_add_right 1 _)
  omega

/-- Every operand word of the instruction fetched is the word of a cell. R41. -/
theorem memRead_operand_word {m : Memory} {pc : Nat} {i : Instr} (h : fetchInstr m pc = .ok i) {o : Operand}
    (ho : o ∈ i.operands) : ∃ b, memRead m b = .ok o.word := by
  obtain ⟨rest, hws⟩ := fetchWords_of_fetchInstr h
  exact memRead_of_mem_fetchWords (hws ▸ List.mem_append_left rest (word_mem_encode ho))

/-- The value that the instruction fetched reads through one of its operands is the word of a cell. R66. -/
theorem memRead_operand_value {m : Memory} {pc : Nat} {rb x : Int} {i : Instr} (h : fetchInstr m pc = .ok i)
    {o : Operand} (ho : o ∈ i.operands) (hx : readOperand m (locate rb o) = .ok x) : ∃ b, memRead m b = .ok x := by
  obtain rfl | hcell := readOperand_ok hx
  · exact memRead_operand_word h ho
  · exact hcell

/-- A fetch from outside memory raises `MemoryBounds` at its `pc`. R12, R65. -/
theorem fetchInstr_of_size_le {m : Memory} {pc : Nat} (h : m.size ≤ pc) :
    fetchInstr m pc = .error ⟨.memoryBounds, pc⟩ := by
  have hr : memRead m pc = .error ⟨.memoryBounds, pc⟩ := memRead_of_not_valid (by omega)
  have hws : fetchWords m maxInstrLength pc = [] := fetchWords_succ_of_error hr
  unfold fetchInstr
  rw [hws]
  simp only [decode, decodeFatal, Nat.cast_zero, add_zero]

end Sys2Proof.Machine
end

section
/-! PROOFS. Invariants: R23 holds at every `RESET`, and every step and every transaction keeps it. -/

namespace Sys2Proof.Machine

/-! ### The memory that an image makes -/

/-- The cell at distance `k` from where an image begins holds its element `k`, and 0 beyond its end. R116. -/
theorem cellsGet_imageCells (image : List Int) (a k : Nat) : cellsGet (imageCells a image) (a + k) = image.getD k 0 := by
  induction image generalizing a k with
  | nil => rfl
  | cons v rest ih =>
    have hbelow : cellsGet (imageCells (a + 1) rest) a = 0 :=
      cellsGet_below (cellsWf_imageCells rest (a + 1) _ (Nat.le_refl _)) (Nat.lt_succ_self a)
    rw [imageCells, cellsGet_cellsCons _ _ _ _ (fun _ hk => hk ▸ hbelow)]
    cases k with
    | zero => rw [Nat.add_zero, if_pos rfl, List.getD_cons_zero]
    | succ k => rw [if_neg (by omega), List.getD_cons_succ, ← ih (a + 1) k, Nat.add_right_comm, Nat.add_assoc]

/-- Every cell of the memory that an image makes holds an element of it. R116. -/
theorem mem_of_memRead_ofImage {image : List Int} {a v : Int} (h : memRead (Memory.ofImage image) a = .ok v) :
    v ∈ image := by
  obtain ⟨⟨h0, hlen⟩, rfl⟩ := memRead_ok h
  have hlt : a.toNat < image.length := (Int.toNat_lt h0).mpr hlen
  have hget := cellsGet_imageCells image 0 a.toNat
  rw [Nat.zero_add, List.getD_eq_getElem _ _ hlt] at hget
  exact List.mem_of_getElem hget.symm

/-- A core comes out of every `RESET` that R90 allows with the invariants. R22, R117. -/
theorem resetWith_inv {p : Config.Params} {image input0 : List Int} (hsize : (image.length : Int) ≤ Config.WMAX p)
    (himage : AllWords p image) (hinput : AllWords p input0) : (resetWith p image input0).Inv where
  memWf := ofImage_wf image
  memSize := hsize
  pcRange := (Int.natCast_nonneg image.length).trans hsize
  memWords _ _ h := himage _ (mem_of_memRead_ofImage h)
  rbWord := Word.inRange_of_64 (x := 0) p (by decide) (by decide)
  inqWords := hinput
  outqWords := List.forall_mem_nil _
  faultedIff := by simp
  fpcZero _ := rfl
  fvalZero _ := rfl
  fpcIsPc h := nomatch h

/-- Settles O50: `State.reset` is `RESET([], [])` of this hardware. -/
theorem resetSatisfiesTheInvariants : Obligations.ResetSatisfiesTheInvariants := by
  unfold Obligations.ResetSatisfiesTheInvariants
  rw [← resetWith_empty]
  exact resetWith_inv (by decide) (List.forall_mem_nil _) (List.forall_mem_nil _)

/-! ### Each update of a state that keeps the invariants, with what it needs -/

section
variable {s : State} (hs : s.Inv)
include hs

/-- The word of a write needs to be a word, and the write to be inside memory. R30. -/
theorem State.Inv.with_mem {m : Memory} {a v : Int} (hm : memWrite s.mem a v = .ok m) (hv : Word.InRange s.params v) :
    State.Inv { s with mem := m } :=
  { hs with
    memWf := memWrite_wf hs.memWf hm
    memSize := memWrite_size hm ▸ hs.memSize
    memWords := fun c w hc => by
      by_cases hca : c = a
      · subst hca
        rw [memRead_memWrite_same hs.memWf hm] at hc
        exact Except.ok.inj hc ▸ hv
      · rw [memRead_memWrite_other hm hca] at hc
        exact hs.memWords c w hc }

theorem State.Inv.with_inq {q : List Int} (hq : AllWords s.params q) : State.Inv { s with inq := q } :=
  { hs with inqWords := hq }

theorem State.Inv.with_outq {q : List Int} (hq : AllWords s.params q) : State.Inv { s with outq := q } :=
  { hs with outqWords := hq }

theorem State.Inv.with_rb {b : Int} (hb : Word.InRange s.params b) : State.Inv { s with rb := b } :=
  { hs with rbWord := hb }

/-- `pc` may move where `fpc` does not have to equal it. R18. -/
theorem State.Inv.with_pc (hr : s.rs ≠ .faulted) {n : Nat} (hn : (n : Int) ≤ Config.WMAX s.params) :
    State.Inv { s with pc := n } :=
  { hs with pcRange := hn, fpcIsPc := fun h => absurd h hr }

/-- A report changes `rs` between two run-states for which the fault registers are 0. R17, R18, R19. -/
theorem State.Inv.report (hr : s.rs ≠ .faulted) {r : RunState} (hr' : r ≠ .faulted) : (report s r).Inv :=
  { hs with
    faultedIff := by simpa [hr, hr'] using hs.faultedIff
    fpcZero := fun _ => hs.fpcZero hr
    fvalZero := fun _ => hs.fvalZero hr
    fpcIsPc := fun h => absurd h hr' }

/-- Fault entry writes the three fault registers together, whatever the error. R106. -/
theorem State.Inv.takeFault (f : Fatal) : (takeFault s f).Inv :=
  { hs with
    faultedIff := by simp
    fpcZero := fun h => absurd rfl h
    fvalZero := fun h => absurd rfl h
    fpcIsPc := fun _ => rfl }

end

/-- The instruction fetched keeps the invariants: it ends inside memory, so the commit leaves `pc` at most `WMAX`, and every
value it reads through an operand is the word of a cell. -/
theorem exec_inv {i : Instr} {s t : State} (hs : s.Inv) (hr : s.rs ≠ .faulted) (hi : fetchInstr s.mem s.pc = .ok i)
    (h : exec i s = .next t) : t.Inv := by
  have hcommit : (commit s i.length).Inv :=
    hs.with_pc hr ((Int.ofNat_le.mpr (fetchInstr_end_le hi)).trans hs.memSize)
  have hread {o x} (ho : o ∈ i.operands) (hx : readOperand s.mem (locate s.rb o) = .ok x) : Word.InRange s.params x :=
    (memRead_operand_value hi ho hx).elim fun b hb => hs.memWords b x hb
  obtain ⟨f, rfl⟩ | ⟨dest, -, -, rfl⟩ | ⟨rfl, rfl⟩ | ⟨dest, m, addr, v, n, q, -, -, hm, rfl, hq, rfl⟩ |
    ⟨a, x, rfl, hx, rfl⟩ | ⟨a, b, p, hjump, hp, rfl⟩ | ⟨a, rb, rfl, hrb, rfl⟩ := exec_cases h
  · exact hs.takeFault f
  · exact hs.report hr nofun
  · exact hcommit.report hr nofun
  · have hwords : Word.InRange s.params v ∧ AllWords s.params q := by
      obtain ⟨rfl, hv, -⟩ | ⟨hq, -⟩ := hq
      · exact ⟨hv, hs.inqWords⟩
      · exact List.forall_mem_cons.mp (hq ▸ hs.inqWords)
    exact ((hcommit.with_mem hm hwords.1).with_inq hwords.2).report hr nofun
  · have hout : AllWords s.params (s.outq ++ [x]) :=
      List.forall_mem_append.mpr ⟨hs.outqWords, List.forall_mem_singleton.mpr (hread (List.mem_singleton_self a) hx)⟩
    exact (hcommit.with_outq hout).report hr nofun
  · have hops : i.length = 3 ∧ b ∈ i.operands := by
      rcases hjump with rfl | rfl <;> exact ⟨rfl, by simp [Instr.operands]⟩
    have hrange : (p : Int) ≤ Config.WMAX s.params := by
      obtain rfl | ⟨y, hy, hpos, rfl⟩ := hp
      · exact hops.1 ▸ hcommit.pcRange
      · exact (Int.toNat_of_nonneg hpos).symm ▸ (hread hops.2 hy).2
    exact (hs.with_pc hr hrange).report hr nofun
  · exact (hcommit.with_rb hrb).report hr nofun

theorem step_inv {s t : State} (hs : s.Inv) (h : step s = .next t) : t.Inv := by
  obtain ⟨-, rfl⟩ | ⟨-, f, -, rfl⟩ | ⟨he, i, hi, hexec⟩ := step_cases h
  · exact hs
  · exact hs.takeFault f
  · exact exec_inv hs (ne_faulted_of_enabled _ he) hi hexec

/-- Settles O51: a step keeps the state, takes a fault, or executes the instruction fetched. -/
theorem everyStepKeepsTheInvariants : Obligations.EveryStepKeepsTheInvariants := by
  unfold Obligations.EveryStepKeepsTheInvariants
  exact fun _ _ hs h => step_inv hs h

/-- Every transaction keeps the invariants: what the host pushes, writes or loads is checked to be a word. R90, R92, R95. -/
theorem transact_inv {tx : Transaction} {s t : State} {reply : Reply} (hs : s.Inv)
    (h : transact tx s = .next (t, reply)) : t.Inv := by
  cases tx with
  | reset image input0 =>
    obtain ⟨hsize, himage, hinput, rfl, -⟩ := hostReset_next h
    exact resetWith_inv hsize himage hinput
  | step => exact step_inv hs (hostStep_next h).1
  | pushInput v =>
    obtain ⟨hv, rfl, -⟩ := hostPushInput_next h
    exact hs.with_inq (List.forall_mem_append.mpr ⟨hs.inqWords, List.forall_mem_singleton.mpr hv⟩)
  | popOutput =>
    obtain ⟨-, rfl, -⟩ | ⟨v, rest, hq, rfl, -⟩ := hostPopOutput_next h
    · exact hs
    · exact hs.with_outq (List.forall_mem_cons.mp (hq ▸ hs.outqWords)).2
  | memRead a =>
    obtain ⟨rfl, -⟩ := hostMemRead_next h
    exact hs
  | memWrite a v =>
    obtain ⟨hv, m, hm, rfl, -⟩ := hostMemWrite_next h
    exact hs.with_mem hm hv
  | readInput | readOutput | readStatus =>
    cases h
    exact hs

/-- Settles O52, by induction on the transactions. -/
theorem reachableStatesSatisfyTheInvariants : Obligations.ReachableStatesSatisfyTheInvariants := by
  unfold Obligations.ReachableStatesSatisfyTheInvariants
  intro s hs
  induction hs with
  | reset p image input0 hsize himage hinput => exact resetWith_inv hsize himage hinput
  | transact s t tx reply _ ht ih => exact transact_inv ih ht

end Sys2Proof.Machine
end

section
/-! PROOFS. Frames: what the instructions with a write operand and those without one leave unchanged. -/

namespace Sys2Proof.Machine

/-- All that an instruction with a write operand can do: fault, wait for input, or write the one cell and report
`Running`, IN taking the head of `inq`. -/
theorem exec_cases_of_dest {i : Instr} {dest : Operand} {s t : State} (hd : i.dest = some dest)
    (h : exec i s = .next t) :
    (∃ f, t = takeFault s f) ∨ t = report s .needsInput ∨
    ∃ m addr v q, (locate s.rb dest).address = some addr ∧ memWrite s.mem addr v = .ok m ∧
      ((q = s.inq ∧ ∀ d, i ≠ .inp d) ∨ (s.inq = v :: q ∧ i = .inp dest)) ∧
      t = report { commit s i.length with mem := m, inq := q } .running := by
  obtain hf | ⟨_, -, -, rfl⟩ | ⟨rfl, -⟩ | ⟨dest', m, addr, v, _, q, hd', ha, hm, rfl, hq, rfl⟩ |
    ⟨_, _, rfl, -⟩ | ⟨_, _, _, hjump, -⟩ | ⟨_, _, rfl, -⟩ := exec_cases h
  · exact .inl hf
  · exact .inr (.inl rfl)
  · cases hd
  · obtain rfl := Option.some.inj (hd'.symm.trans hd)
    exact .inr (.inr ⟨m, addr, v, q, ha, hm, hq.imp (fun ⟨hq, _, hi⟩ => ⟨hq, hi⟩) id, rfl⟩)
  · cases hd
  · rcases hjump with rfl | rfl <;> cases hd
  · cases hd

/-- Settles O40: a fault or a wait changes no cell; a completed store writes only at the address of the write operand. -/
theorem storingInstructionsChangeOnlyTheirCell : Obligations.StoringInstructionsChangeOnlyTheirCell := by
  unfold Obligations.StoringInstructionsChangeOnlyTheirCell
  intro i dest s t hd h
  obtain ⟨f, rfl⟩ | rfl | ⟨m, addr, v, q, ha, hm, hq, rfl⟩ := exec_cases_of_dest hd h
  · simp
  · simp
  · refine ⟨?otherCells, ?immediate, memWrite_size hm, rfl, rfl, rfl, ?inqKept, ?inqHead, fun _ => ⟨rfl, rfl, rfl⟩⟩
    case otherCells =>
      intro addr' ha' c hc
      obtain rfl := Option.some.inj (ha.symm.trans ha')
      exact memRead_memWrite_other hm hc
    case immediate => exact fun hnone => nomatch ha.symm.trans hnone
    case inqKept => exact fun hi => hq.elim And.left fun ⟨_, hinp⟩ => absurd hinp (hi dest)
    case inqHead => exact hq.imp And.left fun ⟨hcons, _⟩ => ⟨v, hcons⟩

/-- All that an instruction without a write operand can do to the components that it may change. -/
theorem exec_cases_of_no_dest {i : Instr} {s t : State} (hd : i.dest = none) (h : exec i s = .next t) :
    (∃ f, t = takeFault s f) ∨
    ∃ p b q r, (b = s.rb ∨ ∃ a, i = .arb a) ∧ (q = s.outq ∨ ∃ a x, i = .out a ∧ q = s.outq ++ [x]) ∧
      t = { s with pc := p, rb := b, outq := q, rs := r } := by
  obtain hf | ⟨_, rfl, -⟩ | ⟨rfl, rfl⟩ | ⟨_, _, _, _, _, _, hd', -⟩ |
    ⟨a, x, rfl, -, rfl⟩ | ⟨_, _, p, -, -, rfl⟩ | ⟨a, b, rfl, -, rfl⟩ := exec_cases h
  · exact .inl hf
  · cases hd
  · exact .inr ⟨_, _, _, _, .inl rfl, .inl rfl, rfl⟩
  · exact nomatch hd.symm.trans hd'
  · exact .inr ⟨_, _, _, _, .inl rfl, .inr ⟨a, x, rfl, rfl⟩, rfl⟩
  · exact .inr ⟨_, _, _, _, .inl rfl, .inl rfl, rfl⟩
  · exact .inr ⟨_, _, _, _, .inr ⟨a, rfl⟩, .inl rfl, rfl⟩

/-- Settles O41: such an instruction faults, or writes `pc`, `rs` and at most one of `rb` and `outq`. -/
theorem otherInstructionsLeaveMemoryUnchanged : Obligations.OtherInstructionsLeaveMemoryUnchanged := by
  unfold Obligations.OtherInstructionsLeaveMemoryUnchanged
  intro i s t hd h
  obtain ⟨f, rfl⟩ | ⟨p, b, q, r, hb, hq, rfl⟩ := exec_cases_of_no_dest hd h
  · simp
  · refine ⟨fun _ => rfl, rfl, rfl, rfl, ?outqKept, ?outqLonger, ?rbKept, fun _ => ⟨rfl, rfl, rfl⟩⟩
    case outqKept => exact fun hi => hq.elim id fun ⟨a, _, hout, _⟩ => absurd hout (hi a)
    case outqLonger => exact hq.imp id fun ⟨_, x, _, hx⟩ => ⟨x, hx⟩
    case rbKept => exact fun hi => hb.elim id fun ⟨a, harb⟩ => absurd harb (hi a)

end Sys2Proof.Machine
end

section
/-! PROOFS. ProgramCounter: how `pc` advances, R12. -/

namespace Sys2Proof.Machine

open Sys2Proof.Spec

/-- An instruction that waits or faults leaves `pc`; one that completes and is no jump advances it by its length. -/
theorem exec_pc {i : Instr} {s t : State} (h : exec i s = .next t) :
    ((t.rs = .needsInput ∨ t.rs = .faulted) → t.pc = s.pc) ∧
    ((t.rs = .running ∨ t.rs = .halted) → (∀ a b, i ≠ .jnz a b ∧ i ≠ .jz a b) → t.pc = s.pc + i.length) := by
  obtain ⟨f, rfl⟩ | ⟨_, -, -, rfl⟩ | ⟨rfl, rfl⟩ | ⟨_, _, _, _, _, _, -, -, -, rfl, -, rfl⟩ |
    ⟨_, _, rfl, -, rfl⟩ | ⟨a, b, _, hjump, -, rfl⟩ | ⟨_, _, rfl, -, rfl⟩ := exec_cases h
  · exact ⟨fun _ => rfl, by simp⟩
  · exact ⟨fun _ => rfl, by simp⟩
  · exact ⟨by simp, fun _ _ => rfl⟩
  · exact ⟨by simp, fun _ _ => rfl⟩
  · exact ⟨by simp, fun _ _ => rfl⟩
  · exact ⟨by simp, fun _ hi => absurd hjump (not_or.mpr (hi a b))⟩
  · exact ⟨by simp, fun _ _ => rfl⟩

/-- A jump that completes has read both operands and goes to the second one's value where it is taken. R57, R81. -/
theorem jumpWhen_pc {taken : Int → Bool} {a b : Operand} {s t : State} (h : conclude s (jumpWhen taken a b s) = .next t)
    (ht : t.rs ≠ .faulted) :
    ∃ x y, readOperand s.mem (locate s.rb a) = .ok x ∧ readOperand s.mem (locate s.rb b) = .ok y ∧
      (taken x = true → (t.pc : Int) = y) ∧ (taken x = false → t.pc = s.pc + 3) := by
  obtain ⟨u, hu, rfl⟩ | ⟨f, -, rfl⟩ := conclude_cases h
  · obtain ⟨x, y, hx, hy, ⟨htaken, hpos, rfl⟩ | ⟨hnot, rfl⟩⟩ := jumpWhen_ok hu
    · exact ⟨x, y, hx, hy, fun _ => Int.toNat_of_nonneg hpos, fun hnot => (nomatch htaken.symm.trans hnot)⟩
    · exact ⟨x, y, hx, hy, fun htaken => (nomatch hnot.symm.trans htaken), fun _ => rfl⟩
  · exact absurd rfl ht

/-- `jumpWhen_pc` at the conditions of JNZ and JZ. R79, R80. -/
theorem exec_jump_pc {i : Instr} {a b : Operand} {s t : State} (hi : i = .jnz a b ∨ i = .jz a b)
    (h : exec i s = .next t) (ht : t.rs ≠ .faulted) :
    ∃ x y, readOperand s.mem (locate s.rb a) = .ok x ∧ readOperand s.mem (locate s.rb b) = .ok y ∧
      ((i = .jnz a b ∧ x ≠ 0 ∨ i = .jz a b ∧ x = 0) → (t.pc : Int) = y) ∧
      ((i = .jnz a b ∧ x = 0 ∨ i = .jz a b ∧ x ≠ 0) → t.pc = s.pc + 3) := by
  rcases hi with rfl | rfl
  all_goals
    obtain ⟨x, y, hx, hy, htaken, hnot⟩ := jumpWhen_pc h ht
    exact ⟨x, y, hx, hy, by simpa [isZero] using htaken, by simpa [isZero] using hnot⟩

/-- Settles O23: a fetch outside memory faults; else the instruction fetched ends inside memory, and `pc` is what its
execution leaves. -/
theorem pcAdvancesOverTheInstruction : Obligations.PcAdvancesOverTheInstruction := by
  unfold Obligations.PcAdvancesOverTheInstruction
  intro s t he h
  obtain ⟨hne, -⟩ | ⟨-, f, hf, rfl⟩ | ⟨-, i, hi, hexec⟩ := step_cases h
  · exact nomatch he.symm.trans hne
  · refine ⟨fun hsize => ?_, fun _ => rfl, fun i hi => nomatch hf.symm.trans hi⟩
    obtain rfl := Except.error.inj ((fetchInstr_of_size_le hsize).symm.trans hf)
    rfl
  · obtain ⟨hstays, hadvances⟩ := exec_pc hexec
    refine ⟨fun hsize => (nomatch (fetchInstr_of_size_le hsize).symm.trans hi), hstays, fun j hj hrs => ?_⟩
    obtain rfl := Except.ok.inj (hi.symm.trans hj)
    have hfaulted : t.rs ≠ .faulted := by rcases hrs with hrs | hrs <;> simp [hrs]
    exact ⟨fetchInstr_end_le hi, hadvances hrs, fun a b hjump => exec_jump_pc hjump hexec hfaulted⟩

end Sys2Proof.Machine
end

section
/-! PROOFS. Memory: where accesses raise, memories in canonical form are equal where their cells are, and no transaction
but `RESET` changes `MEM_SIZE`. -/

namespace Sys2Proof.Machine

/-- Settles O7: both primitives have the one check of their address. -/
theorem accessOutsideMemoryRaisesMemoryBounds : Obligations.AccessOutsideMemoryRaisesMemoryBounds := by
  unfold Obligations.AccessOutsideMemoryRaisesMemoryBounds
  intro m a v
  constructor
  · intro hout
    have hinvalid : ¬ m.Valid a := by omega
    exact ⟨memRead_of_not_valid hinvalid, memWrite_of_not_valid v hinvalid⟩
  · intro h0 hsize
    exact ⟨⟨_, memRead_of_valid ⟨h0, hsize⟩⟩, _, memWrite_of_valid v ⟨h0, hsize⟩⟩

/-! ### The canonical form is determined by the cells -/

theorem cellsWf_cons_iff {size low a : Nat} {v : Int} {rest : List (Nat × Int)} :
    cellsWf size low ((a, v) :: rest) = true ↔ low ≤ a ∧ a < size ∧ v ≠ 0 ∧ cellsWf size (a + 1) rest = true := by
  simp only [cellsWf, Bool.and_eq_true, decide_eq_true_eq, and_assoc]

theorem cellsGet_cons_same (a : Nat) (v : Int) (rest : List (Nat × Int)) : cellsGet ((a, v) :: rest) a = v := if_pos rfl

theorem cellsGet_cons_other {a b : Nat} (v : Int) (rest : List (Nat × Int)) (h : b ≠ a) :
    cellsGet ((a, v) :: rest) b = cellsGet rest b := if_neg h

/-- The first address of a list in canonical form is the least at which the list does not hold 0. -/
theorem le_of_cellsGet_ne_zero {size low a b : Nat} {v : Int} {rest : List (Nat × Int)}
    (h : cellsWf size low ((a, v) :: rest) = true) (hb : cellsGet ((a, v) :: rest) b ≠ 0) : a ≤ b := by
  obtain ⟨-, hsize, hv, hrest⟩ := cellsWf_cons_iff.mp h
  by_contra hlt
  exact hb (cellsGet_below (cellsWf_cons_iff.mpr ⟨Nat.le_refl a, hsize, hv, hrest⟩) (Nat.lt_of_not_le hlt))

/-- The first cells of two such lists that hold the same words are the same cell. -/
theorem cellsHead_eq {size low low' a b : Nat} {v u : Int} {rest rest' : List (Nat × Int)}
    (h : cellsWf size low ((a, v) :: rest) = true) (h' : cellsWf size low' ((b, u) :: rest') = true)
    (hget : cellsGet ((a, v) :: rest) = cellsGet ((b, u) :: rest')) : a = b ∧ v = u := by
  obtain ⟨-, -, hv, -⟩ := cellsWf_cons_iff.mp h
  obtain ⟨-, -, hu, -⟩ := cellsWf_cons_iff.mp h'
  have hab : b ≤ a := le_of_cellsGet_ne_zero h' (by rw [← hget, cellsGet_cons_same]; exact hv)
  have hba : a ≤ b := le_of_cellsGet_ne_zero h (by rw [hget, cellsGet_cons_same]; exact hu)
  obtain rfl := Nat.le_antisymm hba hab
  have hvu := congrFun hget a
  rw [cellsGet_cons_same, cellsGet_cons_same] at hvu
  exact ⟨rfl, hvu⟩

/-- What such lists hold beyond their common first cell is the same. -/
theorem cellsTail_get_eq {size a : Nat} {v : Int} {rest rest' : List (Nat × Int)}
    (h : cellsWf size (a + 1) rest = true) (h' : cellsWf size (a + 1) rest' = true)
    (hget : cellsGet ((a, v) :: rest) = cellsGet ((a, v) :: rest')) : cellsGet rest = cellsGet rest' := by
  funext b
  by_cases hb : b = a
  · rw [cellsGet_below h (by omega), cellsGet_below h' (by omega)]
  · have := congrFun hget b
    rwa [cellsGet_cons_other _ _ hb, cellsGet_cons_other _ _ hb] at this

/-- Lists in canonical form that hold the same words are equal. Log entry 4. -/
theorem cells_ext {size low : Nat} {c c' : List (Nat × Int)} (h : cellsWf size low c = true)
    (h' : cellsWf size low c' = true) (hget : cellsGet c = cellsGet c') : c = c' := by
  induction c generalizing low c' with
  | nil =>
    cases c' with
    | nil => rfl
    | cons d rest' =>
      obtain ⟨-, -, hu, -⟩ := cellsWf_cons_iff.mp h'
      exact absurd ((cellsGet_cons_same d.1 d.2 rest').symm.trans (congrFun hget d.1).symm) hu
  | cons d rest ih =>
    obtain ⟨a, v⟩ := d
    obtain ⟨-, -, hv, hrest⟩ := cellsWf_cons_iff.mp h
    cases c' with
    | nil => exact absurd ((cellsGet_cons_same a v rest).symm.trans (congrFun hget a)) hv
    | cons d' rest' =>
      obtain ⟨rfl, rfl⟩ := cellsHead_eq h h' hget
      obtain ⟨-, -, -, hrest'⟩ := cellsWf_cons_iff.mp h'
      rw [ih hrest hrest' (cellsTail_get_eq hrest hrest' hget)]

/-- Settles O8: reads that agree inside memory make the lists of cells agree there, and both hold 0 beyond it. -/
theorem memoriesWithTheSameCellsAreEqual : Obligations.MemoriesWithTheSameCellsAreEqual := by
  unfold Obligations.MemoriesWithTheSameCellsAreEqual
  rintro ⟨size, c⟩ ⟨_, c'⟩ (h : cellsWf _ 0 c = true) (h' : cellsWf _ 0 c' = true) rfl hread
  have hget : cellsGet c = cellsGet c' := by
    funext a
    by_cases ha : a < size
    · have hvalid : (0 : Int) ≤ a ∧ (a : Int) < size := by omega
      have := hread a
      rw [memRead_of_valid hvalid, memRead_of_valid hvalid] at this
      exact Except.ok.inj this
    · rw [cellsGet_above h (Nat.le_of_not_lt ha), cellsGet_above h' (Nat.le_of_not_lt ha)]
  rw [cells_ext h h' hget]

/-! ### `MEM_SIZE` -/

/-- No instruction changes the number of cells: the only store is a write, which keeps it. R28, R30. -/
theorem exec_mem_size {i : Instr} {s t : State} (h : exec i s = .next t) : t.mem.size = s.mem.size := by
  obtain ⟨_, rfl⟩ | ⟨_, _, _, rfl⟩ | ⟨_, rfl⟩ | ⟨_, _, _, _, _, _, _, _, hm, _, _, rfl⟩ | ⟨_, _, _, _, rfl⟩ |
    ⟨_, _, _, _, _, rfl⟩ | ⟨_, _, _, _, rfl⟩ := exec_cases h
  · rfl
  · rfl
  · rfl
  · exact memWrite_size hm
  · rfl
  · rfl
  · rfl

theorem step_mem_size {s t : State} (h : step s = .next t) : t.mem.size = s.mem.size := by
  obtain ⟨-, rfl⟩ | ⟨-, f, -, rfl⟩ | ⟨-, i, -, hexec⟩ := step_cases h
  · rfl
  · rfl
  · exact exec_mem_size hexec

/-- `RESET` alone loads an image; `MEM_WRITE` keeps the number of cells, and no other host transaction writes memory. -/
theorem transact_mem_size {tx : Transaction} {s t : State} {reply : Reply} (h : transact tx s = .next (t, reply))
    (hreset : ∀ image input0, tx ≠ .reset image input0) : t.mem.size = s.mem.size := by
  cases tx with
  | reset image input0 => exact absurd rfl (hreset image input0)
  | step => exact step_mem_size (hostStep_next h).1
  | pushInput v =>
    obtain ⟨-, rfl, -⟩ := hostPushInput_next h
    rfl
  | popOutput =>
    obtain ⟨-, rfl, -⟩ | ⟨_, _, -, rfl, -⟩ := hostPopOutput_next h <;> rfl
  | memRead a =>
    obtain ⟨rfl, -⟩ := hostMemRead_next h
    rfl
  | memWrite a v =>
    obtain ⟨-, _, hm, rfl, -⟩ := hostMemWrite_next h
    exact memWrite_size hm
  | readInput | readOutput | readStatus =>
    cases h
    rfl

/-- Settles O43: no transaction but `RESET` changes the size, and an address from `MEM_SIZE` on is outside the bounds. -/
theorem memorySizeIsFixedFromReset : Obligations.MemorySizeIsFixedFromReset := by
  unfold Obligations.MemorySizeIsFixedFromReset
  exact ⟨fun _ _ _ _ h hreset => transact_mem_size h hreset,
    fun _ _ v hsize => memWrite_of_not_valid v fun hvalid => absurd hvalid.2 (Int.not_lt.mpr hsize)⟩

end Sys2Proof.Machine
end

section
/-! PROOFS. RoundTrip: the decoder gives every encoding back, and a step runs the instruction whose words stand at `pc`. -/

namespace Sys2Proof

/-! ### The mode digits of operands -/

theorem decimalDigit_modesNumber_zero (o : Operand) (os : List Operand) :
    decimalDigit 0 (modesNumber (o :: os)) = o.modeDigit := by
  have := modeDigit_le_two o
  simp only [decimalDigit, modesNumber, pow_zero, Nat.div_one]
  omega

theorem modesNumber_cons_div_ten (o : Operand) (os : List Operand) : modesNumber (o :: os) / 10 = modesNumber os := by
  have := modeDigit_le_two o
  rw [modesNumber]
  omega

theorem decimalDigit_modesNumber_succ (k : Nat) (o : Operand) (os : List Operand) :
    decimalDigit (k + 1) (modesNumber (o :: os)) = decimalDigit k (modesNumber os) := by
  rw [decimalDigit, pow_succ', ← Nat.div_div_eq_div_mul, modesNumber_cons_div_ten, decimalDigit]

/-- Operands have no mode digit beyond the last one's. R43, R48. -/
theorem modesNumber_div_pow_length (os : List Operand) : modesNumber os / 10 ^ os.length = 0 := by
  induction os with
  | nil => rfl
  | cons o os ih => rw [List.length_cons, pow_succ', ← Nat.div_div_eq_div_mul, modesNumber_cons_div_ten, ih]

/-- The excess check passes for as many operands as the digits are of. R48. -/
theorem checkExcess_modesNumber (w : Int) (os : List Operand) (i : Instr) (rest : List Int) :
    checkExcess w (modesNumber os) os.length i rest = .ok (i, rest) := if_pos (modesNumber_div_pow_length os)

/-! ### Each shape of row, run on the words of its operands -/

theorem decodeForm_zero_of_words (w : Int) (i : Instr) (rest : List Int) :
    decodeForm w (modesNumber []) (.zero i) rest = .ok (i, rest) := checkExcess_modesNumber w [] i rest

theorem decodeForm_one_of_words (w : Int) (mk : Operand → Instr) (a : Operand) (rest : List Int) :
    decodeForm w (modesNumber [a]) (.one mk) (a.word :: rest) = .ok (mk a, rest) :=
  decodeBind_ok.mpr ⟨_, decodeOperand_of_digit a rest (decimalDigit_modesNumber_zero a []),
    checkExcess_modesNumber w [a] (mk a) rest⟩

theorem decodeForm_two_of_words (w : Int) (mk : Operand → Operand → Instr) (a b : Operand) (rest : List Int) :
    decodeForm w (modesNumber [a, b]) (.two mk) (a.word :: b.word :: rest) = .ok (mk a b, rest) := by
  have ha : decimalDigit 0 (modesNumber [a, b]) = a.modeDigit := decimalDigit_modesNumber_zero a [b]
  have hb : decimalDigit 1 (modesNumber [a, b]) = b.modeDigit := by
    rw [decimalDigit_modesNumber_succ, decimalDigit_modesNumber_zero]
  exact decodeBind_ok.mpr ⟨_, decodeOperand_of_digit a _ ha, decodeBind_ok.mpr ⟨_, decodeOperand_of_digit b _ hb,
    checkExcess_modesNumber w [a, b] (mk a b) rest⟩⟩

theorem decodeForm_three_of_words (w : Int) (mk : Operand → Operand → Operand → Instr) (a b c : Operand)
    (rest : List Int) :
    decodeForm w (modesNumber [a, b, c]) (.three mk) (a.word :: b.word :: c.word :: rest) = .ok (mk a b c, rest) := by
  have ha : decimalDigit 0 (modesNumber [a, b, c]) = a.modeDigit := decimalDigit_modesNumber_zero a [b, c]
  have hb : decimalDigit 1 (modesNumber [a, b, c]) = b.modeDigit := by
    rw [decimalDigit_modesNumber_succ, decimalDigit_modesNumber_zero]
  have hc : decimalDigit 2 (modesNumber [a, b, c]) = c.modeDigit := by
    rw [decimalDigit_modesNumber_succ, decimalDigit_modesNumber_succ, decimalDigit_modesNumber_zero]
  exact decodeBind_ok.mpr ⟨_, decodeOperand_of_digit a _ ha, decodeBind_ok.mpr ⟨_, decodeOperand_of_digit b _ hb,
    decodeBind_ok.mpr ⟨_, decodeOperand_of_digit c _ hc, checkExcess_modesNumber w [a, b, c] (mk a b c) rest⟩⟩⟩

/-! ### The round trip -/

/-- The parts of an instruction word that the decoder looks at. R38, R52. -/
theorem instructionWord_parts (i : Instr) :
    ¬ instructionWord i < 0 ∧ (instructionWord i).toNat % 100 = i.opcode ∧
      (instructionWord i).toNat / 100 = modesNumber i.operands := by
  have := opcode_lt_hundred i
  unfold instructionWord
  omega

/-- An instruction word selects the row of its opcode, and the rest of it is the mode digits. -/
theorem decode_encode_eq_decodeForm {i : Instr} {form : OpForm} (hform : opForm? i.opcode = some form)
    (rest : List Int) :
    decode (encode i ++ rest) =
      decodeForm (instructionWord i) (modesNumber i.operands) form (i.operands.map Operand.word ++ rest) := by
  obtain ⟨hw, hop, hmodes⟩ := instructionWord_parts i
  have hrow : formOfWord? (instructionWord i) = some form := by rw [formOfWord?, if_neg hw, hop, hform]
  simp only [encode, List.cons_append, decode, hrow, hmodes]

/-- Decoding gives every encoding back, whatever follows it. R38, R41 to R45, R52. -/
theorem decode_encode_append (i : Instr) (rest : List Int) : decode (encode i ++ rest) = .ok (i, rest) := by
  cases i with
  | add a b c => exact (decode_encode_eq_decodeForm rfl rest).trans (decodeForm_three_of_words _ _ a b c rest)
  | mul a b c => exact (decode_encode_eq_decodeForm rfl rest).trans (decodeForm_three_of_words _ _ a b c rest)
  | lt a b c => exact (decode_encode_eq_decodeForm rfl rest).trans (decodeForm_three_of_words _ _ a b c rest)
  | eq a b c => exact (decode_encode_eq_decodeForm rfl rest).trans (decodeForm_three_of_words _ _ a b c rest)
  | jnz a b => exact (decode_encode_eq_decodeForm rfl rest).trans (decodeForm_two_of_words _ _ a b rest)
  | jz a b => exact (decode_encode_eq_decodeForm rfl rest).trans (decodeForm_two_of_words _ _ a b rest)
  | inp a => exact (decode_encode_eq_decodeForm rfl rest).trans (decodeForm_one_of_words _ _ a rest)
  | out a => exact (decode_encode_eq_decodeForm rfl rest).trans (decodeForm_one_of_words _ _ a rest)
  | arb a => exact (decode_encode_eq_decodeForm rfl rest).trans (decodeForm_one_of_words _ _ a rest)
  | hlt => exact (decode_encode_eq_decodeForm rfl rest).trans (decodeForm_zero_of_words _ .hlt rest)

theorem length_le_maxInstrLength (i : Instr) : i.length ≤ maxInstrLength := by
  cases i <;> simp [Instr.length, Instr.operands, maxInstrLength]

end Sys2Proof

namespace Sys2Proof.Machine

/-- The cells from `a` on hold the words `ws`. R41. -/
def HoldsWords (m : Memory) (a : Nat) (ws : List Int) : Prop :=
  ∀ (k : Nat) (v : Int), ws[k]? = some v → memRead m ((a : Int) + k) = .ok v

theorem HoldsWords.head {m : Memory} {a : Nat} {w : Int} {ws : List Int} (h : HoldsWords m a (w :: ws)) :
    memRead m a = .ok w := by
  simpa using h 0 w rfl

theorem HoldsWords.tail {m : Memory} {a : Nat} {w : Int} {ws : List Int} (h : HoldsWords m a (w :: ws)) :
    HoldsWords m (a + 1) ws := by
  intro k v hk
  rw [← h (k + 1) v hk]
  congr 1
  push_cast
  ring

theorem holdsWords_singleton {m : Memory} {a : Nat} {w : Int} (h : memRead m a = .ok w) : HoldsWords m a [w] := by
  intro k v hk
  cases k with
  | zero =>
    cases hk
    simpa using h
  | succ k => cases hk

/-- The words that a run of cells holds are the first ones fetched there. -/
theorem fetchWords_of_holdsWords {m : Memory} {ws : List Int} {n a : Nat} (h : HoldsWords m a ws)
    (hn : ws.length ≤ n) : ∃ rest, fetchWords m n a = ws ++ rest := by
  induction ws generalizing n a with
  | nil => exact ⟨_, rfl⟩
  | cons w ws ih =>
    obtain ⟨n, rfl⟩ : ∃ k, n = k + 1 := ⟨n - 1, by simp only [List.length_cons] at hn; omega⟩
    obtain ⟨rest, hrest⟩ := ih h.tail (Nat.le_of_succ_le_succ hn)
    exact ⟨rest, by rw [fetchWords_succ_of_ok h.head, hrest, List.cons_append]⟩

/-- An instruction is fetched from where its encoding stands. R60. -/
theorem fetchInstr_of_holdsWords {m : Memory} {pc : Nat} {i : Instr} (h : HoldsWords m pc (encode i)) :
    fetchInstr m pc = .ok i := by
  obtain ⟨rest, hws⟩ := fetchWords_of_holdsWords h ((encode_length i).trans_le (length_le_maxInstrLength i))
  simp only [fetchInstr, hws, decode_encode_append]

/-- An enabled step is the executor on the instruction fetched. R54, R56. -/
theorem step_of_fetchInstr {s : State} {i : Instr} (he : s.rs.enabled = true) (hi : fetchInstr s.mem s.pc = .ok i) :
    step s = exec i s := by
  simp only [step, he, if_true, hi]

/-- An enabled step runs the instruction whose words stand at `pc`. -/
theorem step_of_holdsWords {s : State} {i : Instr} (he : s.rs.enabled = true) (h : HoldsWords s.mem s.pc (encode i)) :
    step s = exec i s := step_of_fetchInstr he (fetchInstr_of_holdsWords h)

end Sys2Proof.Machine
end

section
/-! PROOFS. StoredWord: a word stored, by an instruction or by the host, is seen by the very next fetch, R37. -/

namespace Sys2Proof.Machine

/-- Words stand in memory after a write where they stood before it, the cell written counted with the word written. -/
theorem holdsWords_of_memWrite {m m' : Memory} {addr x : Int} {pc : Nat} {ws : List Int} (hwf : m.wf = true)
    (hm : memWrite m addr x = .ok m')
    (hws : ∀ (k : Nat) (v : Int), ws[k]? = some v →
      if ((pc + k : Nat) : Int) = addr then v = x else memRead m ((pc + k : Nat) : Int) = .ok v) :
    HoldsWords m' pc ws := by
  intro k v hk
  have hcell := hws k v hk
  rw [← Nat.cast_add]
  split at hcell
  · rename_i haddr
    rw [haddr, hcell]
    exact memRead_memWrite_same hwf hm
  · rename_i haddr
    rw [memRead_memWrite_other hm haddr]
    exact hcell

/-- An instruction with a write operand that completes has written one word there, and `pc` is past its cells. -/
theorem exec_completed_of_dest {i : Instr} {dest : Operand} {s t : State} {addr : Int} (hd : i.dest = some dest)
    (ha : (locate s.rb dest).address = some addr) (h : exec i s = .next t) (hr : t.rs = .running) :
    t.pc = s.pc + i.length ∧ ∃ x, memWrite s.mem addr x = .ok t.mem := by
  obtain ⟨f, rfl⟩ | rfl | ⟨m, addr', x, q, ha', hm, -, rfl⟩ := exec_cases_of_dest hd h
  · cases hr
  · cases hr
  · obtain rfl := Option.some.inj (ha'.symm.trans ha)
    exact ⟨rfl, x, hm⟩

/-- An ADD that completes stores the sum. R73. -/
theorem execAdd_of_ok {a b dest : Operand} {s : State} {x y addr : Int} {m : Memory}
    (hx : readOperand s.mem (locate s.rb a) = .ok x) (hy : readOperand s.mem (locate s.rb b) = .ok y)
    (hsum : Word.InRange s.params (x + y)) (ha : (locate s.rb dest).address = some addr)
    (hm : memWrite s.mem addr (x + y) = .ok m) :
    exec (.add a b dest) s = .next (report { commit s 4 with mem := m } .running) := by
  have hrun := computeAndStore_of_ok (f := fun x y => narrow s.params (x + y)) hx hy (narrow_of_inRange hsum) ha hm
  simp only [exec, execAdd, hrun, conclude]

/-- The program P4 of the spec: the ADD has written a HLT where `pc` goes. R37. -/
theorem add_then_halt {s : State} {a b dest : Operand} {x y : Int} (hwf : s.mem.wf = true)
    (he : s.rs.enabled = true) (hi : fetchInstr s.mem s.pc = .ok (.add a b dest))
    (hx : readOperand s.mem (locate s.rb a) = .ok x) (hy : readOperand s.mem (locate s.rb b) = .ok y)
    (hsum : x + y = 99) (ha : (locate s.rb dest).address = some ((s.pc : Int) + 4))
    (hvalid : s.mem.Valid ((s.pc : Int) + 4)) :
    ∃ t, runSteps 2 s = .next t ∧ t.rs = .halted ∧ t.pc = s.pc + 5 := by
  obtain ⟨m, hm⟩ : ∃ m, memWrite s.mem ((s.pc : Int) + 4) (x + y) = .ok m := ⟨_, memWrite_of_valid (x + y) hvalid⟩
  have hrange : Word.InRange s.params (x + y) := hsum ▸ Word.inRange_of_64 s.params (by decide) (by decide)
  have hadd := (step_of_fetchInstr he hi).trans (execAdd_of_ok hx hy hrange ha hm)
  have hwords : HoldsWords m (s.pc + 4) [99] :=
    holdsWords_singleton (by rw [Nat.cast_add, Nat.cast_ofNat, memRead_memWrite_same hwf hm, hsum])
  have hhalt := step_of_holdsWords (s := report { commit s 4 with mem := m } .running) (i := .hlt) rfl hwords
  exact ⟨_, (runSteps_succ 1 hadd).trans (runSteps_succ 0 hhalt), rfl, rfl⟩

/-- Settles O39: in each clause the words at the new `pc` are those before the write but for the word written. -/
theorem storedWordIsTheNextInstruction : Obligations.StoredWordIsTheNextInstruction := by
  unfold Obligations.StoredWordIsTheNextInstruction
  refine ⟨?stored, ?hostWritten, ?addThenHalt⟩
  case stored =>
    intro s t i dest addr hwf he hi hd ha h hr
    rw [step_of_fetchInstr he hi] at h
    obtain ⟨hpc, x, hm⟩ := exec_completed_of_dest hd ha h hr
    refine ⟨hpc, x, memRead_memWrite_same hwf hm, fun j hj => ?_⟩
    refine step_of_holdsWords (by rw [hr]; rfl) ?_
    rw [hpc]
    exact holdsWords_of_memWrite hwf hm hj
  case hostWritten =>
    intro s t a x reply j hwf he h hj
    obtain ⟨-, m, hm, rfl, -⟩ := hostMemWrite_next h
    exact step_of_holdsWords he (holdsWords_of_memWrite hwf hm hj)
  case addThenHalt =>
    intro s a b dest x y hwf he hi hx hy hsum ha hvalid
    exact add_then_halt hwf he hi hx hy hsum ha hvalid

end Sys2Proof.Machine
end

section
/-! PROOFS. Encoding: the decoder and the encoder are inverse to each other, and a step runs what is encoded at `pc`. -/

namespace Sys2Proof

/-- Settles O1: the decoder takes an instruction word apart into the opcode and the mode digits it was made of. -/
theorem encodedInstructionDecodesToItself : Obligations.EncodedInstructionDecodesToItself := decode_encode_append

/-- Settles O2: the row, the mode digits and the excess check leave no digit of the word undetermined. -/
theorem decodedWordsAreTheEncoding : Obligations.DecodedWordsAreTheEncoding := fun _ _ _ h => decode_ok_eq_encode h

end Sys2Proof

namespace Sys2Proof.Machine

/-- Settles O14: the words fetched begin with the encoding, which decodes to the instruction. -/
theorem stepRunsTheInstructionWhoseWordsStandAtPc : Obligations.StepRunsTheInstructionWhoseWordsStandAtPc :=
  fun _ _ he h => step_of_holdsWords he h

end Sys2Proof.Machine
end

section
/-! PROOFS. Classification: R48's legal words, and the class of R50 that every instruction word falls in. -/

namespace Sys2Proof

open Spec

/-! ### The rows of the opcode map -/

/-- The operands that a row takes. R44. -/
def OpForm.arity : OpForm → Nat
  | .zero _ => 0
  | .one _ => 1
  | .two _ => 2
  | .three _ => 3

theorem opForm_of_mem_legalOpcodes {op : Nat} (h : op ∈ legalOpcodes) :
    ∃ form, opForm? op = some form ∧ form.arity = operandCount op := by
  simp only [legalOpcodes, List.mem_cons, List.not_mem_nil, or_false] at h
  rcases h with rfl | rfl | rfl | rfl | rfl | rfl | rfl | rfl | rfl | rfl
  all_goals exact ⟨_, rfl, rfl⟩

theorem opForm_of_not_mem_legalOpcodes {op : Nat} (h : op ∉ legalOpcodes) : opForm? op = none := by
  cases hform : opForm? op with
  | none => rfl
  | some form =>
    have hrow := opForm_some hform
    simp only [legalOpcodes, List.mem_cons, List.not_mem_nil, or_false] at h
    omega

theorem opcode_mem_legalOpcodes (i : Instr) : i.opcode ∈ legalOpcodes := by
  cases i <;> simp [Instr.opcode, legalOpcodes]

theorem operandCount_opcode (i : Instr) : operandCount i.opcode = i.operands.length := by
  cases i <;> rfl

/-! ### The mode digits -/

/-- The mode digits of the first `k` operands are each 0, 1 or 2. R42, R47. -/
def LegalDigits (modes k : Nat) : Prop := ∀ j < k, decimalDigit j modes ≤ 2

/-- The mode digits stand above the two digits of the opcode. R38. -/
theorem decimalDigit_div_hundred (k n : Nat) : decimalDigit k (n / 100) = decimalDigit (k + 2) n := by
  simp only [decimalDigit, Nat.div_div_eq_div_mul, Nat.add_comm k 2, pow_add, Nat.reducePow]

theorem div_hundred_div_pow (k n : Nat) : n / 100 / 10 ^ k = n / 10 ^ (2 + k) := by
  simp only [Nat.div_div_eq_div_mul, pow_add, Nat.reducePow]

/-- The statements number operands from 1, and their digits by their place in the whole word. R38. -/
theorem legalDigits_of_word {n k : Nat} (h : ∀ j, 1 ≤ j → j ≤ k → decimalDigit (j + 1) n ≤ 2) :
    LegalDigits (n / 100) k := by
  intro j hj
  rw [decimalDigit_div_hundred]
  exact h (j + 1) (Nat.le_add_left 1 j) hj

theorem mem_modeNumbers_succ {k n : Nat} :
    n ∈ modeNumbers (k + 1) ↔ ∃ d ≤ 2, ∃ m ∈ modeNumbers k, d + 10 * m = n := by
  simp only [modeNumbers, List.mem_flatMap, List.mem_map, List.mem_cons, List.not_mem_nil, or_false]
  exact exists_congr fun d => and_congr_left' (by omega)

/-- Operands have a mode number of as many digits. R43. -/
theorem modesNumber_mem_modeNumbers (os : List Operand) : modesNumber os ∈ modeNumbers os.length := by
  induction os with
  | nil => exact List.mem_singleton_self 0
  | cons o os ih => exact mem_modeNumbers_succ.mpr ⟨o.modeDigit, modeDigit_le_two o, _, ih, rfl⟩

/-- Whatever number `e` stands above them, `k` mode digits are legal digits below `10 ^ k`. R48. -/
theorem digits_of_mem_modeNumbers {k m : Nat} (h : m ∈ modeNumbers k) (e : Nat) :
    LegalDigits (m + 10 ^ k * e) k ∧ (m + 10 ^ k * e) / 10 ^ k = e := by
  induction k generalizing m with
  | zero =>
    obtain rfl : m = 0 := List.mem_singleton.mp h
    exact ⟨fun j hj => absurd hj (Nat.not_lt_zero j), by simp⟩
  | succ k ih =>
    obtain ⟨d, hd, m, hm, rfl⟩ := mem_modeNumbers_succ.mp h
    obtain ⟨hlegal, hexcess⟩ := ih hm
    have hsplit : d + 10 * m + 10 ^ (k + 1) * e = d + 10 * (m + 10 ^ k * e) := by ring
    have htail : (d + 10 * (m + 10 ^ k * e)) / 10 = m + 10 ^ k * e := by omega
    rw [hsplit]
    constructor
    · intro j hj
      cases j with
      | zero =>
        simp only [decimalDigit, pow_zero, Nat.div_one]
        omega
      | succ j =>
        rw [decimalDigit, pow_succ', ← Nat.div_div_eq_div_mul, htail]
        exact hlegal j (Nat.lt_of_succ_lt_succ hj)
    · rw [pow_succ', ← Nat.div_div_eq_div_mul, htail, hexcess]

/-! ### One operand, by its digit -/

theorem decodeOperand_of_digit_le_two {modes k : Nat} (v : Int) (rest : List Int) (h : decimalDigit k modes ≤ 2) :
    ∃ o, decodeOperand modes (k + 1) (v :: rest) = .ok (o, rest) := by
  obtain ⟨o, ho⟩ := Option.ne_none_iff_exists'.mp fun hnone => Nat.not_lt.mpr h (operandOfMode_none (v := v).mp hnone)
  exact ⟨o, by simp only [decodeOperand, Nat.add_sub_cancel, ho]⟩

theorem decodeOperand_of_two_lt_digit {modes k : Nat} (v : Int) (rest : List Int) (h : 2 < decimalDigit k modes) :
    decodeOperand modes (k + 1) (v :: rest) = .error (.unknownMode (decimalDigit k modes)) := by
  simp only [decodeOperand, Nat.add_sub_cancel, operandOfMode_none.mpr h]

/-! ### A row, by the digits of its operands, its operand words being there -/

theorem decodeBind_of_ok {α β : Type} {x : Except DecodeError α} {f : α → Except DecodeError β} {a : α}
    (h : x = .ok a) : (x >>= f) = f a := by
  rw [h]
  rfl

theorem decodeBind_of_error {α β : Type} {x : Except DecodeError α} {f : α → Except DecodeError β} {e : DecodeError}
    (h : x = .error e) : (x >>= f) = .error e := by
  rw [h]
  rfl

/-- Legal digits leave the check on what stands above them. R60, R65 (4). -/
theorem decodeForm_of_legalDigits {modes : Nat} {form : OpForm} (w v1 v2 v3 : Int)
    (h : LegalDigits modes form.arity) :
    ∃ i, decodeForm w modes form [v1, v2, v3] = checkExcess w modes form.arity i ([v1, v2, v3].drop form.arity) := by
  cases form with
  | zero i => exact ⟨i, rfl⟩
  | one mk =>
    obtain ⟨a, ha⟩ := decodeOperand_of_digit_le_two v1 [v2, v3] (h 0 Nat.one_pos)
    exact ⟨mk a, decodeBind_of_ok ha⟩
  | two mk =>
    obtain ⟨a, ha⟩ := decodeOperand_of_digit_le_two v1 [v2, v3] (h 0 Nat.two_pos)
    obtain ⟨b, hb⟩ := decodeOperand_of_digit_le_two v2 [v3] (h 1 Nat.one_lt_two)
    exact ⟨mk a b, (decodeBind_of_ok ha).trans (decodeBind_of_ok hb)⟩
  | three mk =>
    obtain ⟨a, ha⟩ := decodeOperand_of_digit_le_two v1 [v2, v3] (h 0 (Nat.succ_pos 2))
    obtain ⟨b, hb⟩ := decodeOperand_of_digit_le_two v2 [v3] (h 1 (Nat.one_lt_succ_succ 1))
    obtain ⟨c, hc⟩ := decodeOperand_of_digit_le_two v3 [] (h 2 (Nat.lt_succ_self 2))
    exact ⟨mk a b c, (decodeBind_of_ok ha).trans ((decodeBind_of_ok hb).trans (decodeBind_of_ok hc))⟩

/-- The loop over the operands stops at operand `k + 1`: it is the operand at hand, or it comes later. R60. -/
theorem decodeOperand_bind_of_illegalDigit {modes k j : Nat} {α : Type} {f : Operand × List Int → Except DecodeError α}
    (hbefore : LegalDigits modes k) (hdigit : 2 < decimalDigit k modes) (v : Int) (rest : List Int) (hj : j ≤ k)
    (hlater : j < k → ∀ o, f (o, rest) = .error (.unknownMode (decimalDigit k modes))) :
    (decodeOperand modes (j + 1) (v :: rest) >>= f) = .error (.unknownMode (decimalDigit k modes)) := by
  obtain rfl | hlt := Nat.eq_or_lt_of_le hj
  · exact decodeBind_of_error (decodeOperand_of_two_lt_digit v rest hdigit)
  · obtain ⟨o, ho⟩ := decodeOperand_of_digit_le_two v rest (hbefore j hlt)
    exact (decodeBind_of_ok ho).trans (hlater hlt o)

/-- The first digit above 2 of an operand of the row is refused; the digits above it are not looked at. R47, R65. -/
theorem decodeForm_of_first_illegalDigit {modes k : Nat} {form : OpForm} (w v1 v2 v3 : Int) (hk : k < form.arity)
    (hbefore : LegalDigits modes k) (hdigit : 2 < decimalDigit k modes) :
    decodeForm w modes form [v1, v2, v3] = .error (.unknownMode (decimalDigit k modes)) := by
  cases form with
  | zero i => exact absurd hk (Nat.not_lt_zero k)
  | one mk =>
    refine decodeOperand_bind_of_illegalDigit hbefore hdigit v1 _ (Nat.zero_le k) fun h1 _ => ?_
    exact absurd hk (Nat.not_lt_of_le h1)
  | two mk =>
    refine decodeOperand_bind_of_illegalDigit hbefore hdigit v1 _ (Nat.zero_le k) fun h1 _ => ?_
    refine decodeOperand_bind_of_illegalDigit hbefore hdigit v2 _ h1 fun h2 _ => ?_
    exact absurd hk (Nat.not_lt_of_le h2)
  | three mk =>
    refine decodeOperand_bind_of_illegalDigit hbefore hdigit v1 _ (Nat.zero_le k) fun h1 _ => ?_
    refine decodeOperand_bind_of_illegalDigit hbefore hdigit v2 _ h1 fun h2 _ => ?_
    refine decodeOperand_bind_of_illegalDigit hbefore hdigit v3 _ h2 fun h3 _ => ?_
    exact absurd hk (Nat.not_lt_of_le h3)

/-! ### A whole word -/

theorem decode_of_no_row {w : Int} (ws : List Int) (h : formOfWord? w = none) :
    decode (w :: ws) = .error (.unknownOpcode w) := by
  simp only [decode, h]

/-- A negative word is no instruction. R40. -/
theorem decode_of_neg {w : Int} (ws : List Int) (hw : w < 0) : decode (w :: ws) = .error (.unknownOpcode w) :=
  decode_of_no_row ws (if_pos hw)

/-- A word whose last two digits are no opcode is no instruction. R46. -/
theorem decode_of_illegalOpcode {w : Int} (ws : List Int) (hop : w.toNat % 100 ∉ legalOpcodes) :
    decode (w :: ws) = .error (.unknownOpcode w) := by
  refine decode_of_no_row ws ?_
  rw [formOfWord?, opForm_of_not_mem_legalOpcodes hop, ite_self]

section

variable {w : Int} {op : Nat} (hw : 0 ≤ w) (hop : w.toNat % 100 = op) (hlegal : op ∈ legalOpcodes)
include hw hop hlegal

/-- A word that is not negative and ends in an opcode selects that opcode's row. R39, R44. -/
theorem decode_of_legalOpcode (ws : List Int) :
    ∃ form, form.arity = operandCount op ∧ decode (w :: ws) = decodeForm w (w.toNat / 100) form ws := by
  obtain ⟨form, hform, harity⟩ := opForm_of_mem_legalOpcodes hlegal
  have hrow : formOfWord? w = some form := by rw [formOfWord?, if_neg (Int.not_lt.mpr hw), hop, hform]
  exact ⟨form, harity, by simp only [decode, hrow]⟩

theorem decode_of_first_illegalDigit {k : Nat} (v1 v2 v3 : Int) (hk : k < operandCount op)
    (hbefore : LegalDigits (w.toNat / 100) k) (hdigit : 2 < decimalDigit k (w.toNat / 100)) :
    decode [w, v1, v2, v3] = .error (.unknownMode (decimalDigit k (w.toNat / 100))) := by
  obtain ⟨form, harity, hdecode⟩ := decode_of_legalOpcode hw hop hlegal [v1, v2, v3]
  exact hdecode.trans (decodeForm_of_first_illegalDigit w v1 v2 v3 (harity ▸ hk) hbefore hdigit)

variable (hdigits : LegalDigits (w.toNat / 100) (operandCount op))
include hdigits

theorem decode_of_legalDigits (v1 v2 v3 : Int) :
    ∃ i, decode [w, v1, v2, v3] =
      checkExcess w (w.toNat / 100) (operandCount op) i ([v1, v2, v3].drop (operandCount op)) := by
  obtain ⟨form, harity, hdecode⟩ := decode_of_legalOpcode hw hop hlegal [v1, v2, v3]
  rw [hdecode, ← harity]
  exact decodeForm_of_legalDigits w v1 v2 v3 (harity ▸ hdigits)

/-- Digits above the last mode digit that are not all 0 are refused. R48. -/
theorem decode_of_excess (v1 v2 v3 : Int) (hexcess : w.toNat / 100 / 10 ^ operandCount op ≠ 0) :
    decode [w, v1, v2, v3] = .error (.reservedModeDigits w) := by
  obtain ⟨i, hdecode⟩ := decode_of_legalDigits hw hop hlegal hdigits v1 v2 v3
  exact hdecode.trans (if_neg hexcess)

theorem decode_of_no_excess (v1 v2 v3 : Int) (hexcess : w.toNat / 100 / 10 ^ operandCount op = 0) :
    ∃ i, decode [w, v1, v2, v3] = .ok (i, [v1, v2, v3].drop (operandCount op)) := by
  obtain ⟨i, hdecode⟩ := decode_of_legalDigits hw hop hlegal hdigits v1 v2 v3
  exact ⟨i, hdecode.trans (if_pos hexcess)⟩

end

/-! ### Words that decode -/

theorem instructionWord_of_decode {w : Int} {ws rest : List Int} {i : Instr} (h : decode (w :: ws) = .ok (i, rest)) :
    w = instructionWord i := (List.cons.inj (decode_ok_eq_encode h)).1

/-- The encoding takes the words that decoding does not leave. R41. -/
theorem encode_of_decode_drop {w : Int} {ws : List Int} {k : Nat} {i : Instr}
    (h : decode (w :: ws) = .ok (i, ws.drop k)) : encode i = w :: ws.take k := by
  refine List.append_cancel_right (bs := ws.drop k) ?_
  rw [← decode_ok_eq_encode h, List.cons_append, List.take_append_drop]

/-- The word of an instruction is a legal word. R44, R48. -/
theorem instructionWord_mem_legalWords (i : Instr) : (instructionWord i).toNat ∈ legalWords :=
  List.mem_flatMap.mpr ⟨i.opcode, opcode_mem_legalOpcodes i, List.mem_map.mpr
    ⟨modesNumber i.operands, operandCount_opcode i ▸ modesNumber_mem_modeNumbers i.operands, rfl⟩⟩

/-- Settles O4: the decoder looks at the opcode, then at the mode digits in operand order, then at what stands above
them; what passes all three is the encoding of what it decodes to. -/
theorem decoderClassifiesEveryWord : Obligations.DecoderClassifiesEveryWord := by
  unfold Obligations.DecoderClassifiesEveryWord
  intro w v1 v2 v3 n op k
  refine ⟨?negative, ?opcode, ?mode, ?excess, ?legal⟩
  case negative => exact decode_of_neg _
  case opcode => exact fun _ hop => decode_of_illegalOpcode _ hop
  case mode =>
    intro hw hop i hi hik hbefore hdigit
    obtain ⟨j, rfl⟩ : ∃ j, i = j + 1 := ⟨i - 1, by omega⟩
    have hlegal : LegalDigits (n / 100) j :=
      legalDigits_of_word fun j' hj' hle => hbefore j' hj' (Nat.lt_succ_of_le hle)
    rw [← decimalDigit_div_hundred] at hdigit ⊢
    exact decode_of_first_illegalDigit hw rfl hop v1 v2 v3 hik hlegal hdigit
  case excess =>
    intro hw hop hdigits hexcess
    rw [← div_hundred_div_pow] at hexcess
    exact decode_of_excess hw rfl hop (legalDigits_of_word hdigits) v1 v2 v3 hexcess
  case legal =>
    intro hw hop hdigits hexcess
    rw [← div_hundred_div_pow] at hexcess
    obtain ⟨i, hdecode⟩ := decode_of_no_excess hw rfl hop (legalDigits_of_word hdigits) v1 v2 v3 hexcess
    have hword : w = instructionWord i := instructionWord_of_decode hdecode
    have hn : (instructionWord i).toNat = n := hword ▸ rfl
    obtain ⟨-, hopcode, -⟩ := instructionWord_parts i
    exact ⟨hn ▸ instructionWord_mem_legalWords i, i, hdecode, encode_of_decode_drop hdecode, hopcode ▸ hn ▸ rfl⟩

/-! ### The legal words -/

theorem lt_hundred_of_mem_legalOpcodes : ∀ op ∈ legalOpcodes, op < 100 := by decide

/-- What the decoder sees of an opcode, its mode digits and a number `e` above them. R38, R48. -/
theorem digits_of_word {w : Int} {op m e : Nat} (hop : op ∈ legalOpcodes) (hm : m ∈ modeNumbers (operandCount op))
    (hw : w = ((op + 100 * m + 10 ^ (2 + operandCount op) * e : Nat) : Int)) :
    0 ≤ w ∧ w.toNat % 100 = op ∧ LegalDigits (w.toNat / 100) (operandCount op) ∧
      w.toNat / 100 / 10 ^ operandCount op = e := by
  obtain ⟨hlegal, hexcess⟩ := digits_of_mem_modeNumbers hm e
  have hlt := lt_hundred_of_mem_legalOpcodes op hop
  have hsplit : op + 100 * m + 10 ^ (2 + operandCount op) * e = op + 100 * (m + 10 ^ operandCount op * e) := by ring
  have hmodes : w.toNat / 100 = m + 10 ^ operandCount op * e := by omega
  rw [hmodes]
  exact ⟨by omega, by omega, hlegal, hexcess⟩

/-- The words that decode are the legal ones. R48, R50. -/
theorem decode_ok_iff_mem_legalWords (w v1 v2 v3 : Int) :
    (∃ i rest, decode [w, v1, v2, v3] = .ok (i, rest)) ↔ ∃ n ∈ legalWords, w = (n : Int) := by
  constructor
  · rintro ⟨i, rest, h⟩
    exact ⟨_, instructionWord_mem_legalWords i, instructionWord_of_decode h⟩
  · rintro ⟨n, hn, hw⟩
    obtain ⟨op, hop, hn⟩ := List.mem_flatMap.mp hn
    obtain ⟨m, hm, rfl⟩ := List.mem_map.mp hn
    obtain ⟨hpos, hlast, hdigits, hexcess⟩ := digits_of_word (e := 0) hop hm hw
    obtain ⟨i, hdecode⟩ := decode_of_no_excess hpos hlast hop hdigits v1 v2 v3 hexcess
    exact ⟨i, _, hdecode⟩

theorem modeNumbers_length (k : Nat) : (modeNumbers k).length = 3 ^ k := by
  induction k with
  | zero => rfl
  | succ k ih =>
    simp only [modeNumbers, List.length_flatMap, List.length_map, ih, List.map_cons, List.map_nil, List.sum_cons,
      List.sum_nil]
    ring

/-- Numbers made of a lowest digit in base `b` and a number above it are different where their parts are. -/
theorem nodup_flatMap_digits {b : Nat} {ds : List Nat} {ms : Nat → List Nat} (hds : ds.Nodup) (hlt : ∀ d ∈ ds, d < b)
    (hms : ∀ d ∈ ds, (ms d).Nodup) : (ds.flatMap fun d => (ms d).map fun m => d + b * m).Nodup := by
  refine List.nodup_flatMap.mpr ⟨fun d hd => (hms d hd).map fun m m' h => ?_, hds.imp_of_mem fun hd hd' hne => ?_⟩
  · exact Nat.eq_of_mul_eq_mul_left (Nat.zero_lt_of_lt (hlt d hd)) (Nat.add_left_cancel h)
  · intro n hn hn'
    obtain ⟨m, -, rfl⟩ := List.mem_map.mp hn
    obtain ⟨m', -, h⟩ := List.mem_map.mp hn'
    have hmod := congrArg (· % b) h
    simp only [Nat.add_mul_mod_self_left, Nat.mod_eq_of_lt (hlt _ hd), Nat.mod_eq_of_lt (hlt _ hd')] at hmod
    exact hne hmod.symm

theorem modeNumbers_nodup (k : Nat) : (modeNumbers k).Nodup := by
  induction k with
  | zero => exact List.nodup_singleton 0
  | succ k ih => exact nodup_flatMap_digits (b := 10) (by decide) (by decide) fun _ _ => ih

/-- The largest number of `k` mode digits is `k` twos. -/
theorem le_of_mem_modeNumbers {k m : Nat} (h : m ∈ modeNumbers k) : 9 * m + 2 ≤ 2 * 10 ^ k := by
  induction k generalizing m with
  | zero =>
    obtain rfl : m = 0 := List.mem_singleton.mp h
    exact Nat.le_refl 2
  | succ k ih =>
    obtain ⟨d, hd, m, hm, rfl⟩ := mem_modeNumbers_succ.mp h
    have := ih hm
    rw [pow_succ]
    omega

theorem legalWords_length : legalWords.length = 136 := by
  simp only [legalWords, List.length_flatMap, List.length_map, modeNumbers_length]
  rfl

theorem legalWords_nodup : legalWords.Nodup :=
  nodup_flatMap_digits (by decide) lt_hundred_of_mem_legalOpcodes fun op _ => modeNumbers_nodup (operandCount op)

/-- No row makes a larger word than EQ with its three operands relative. -/
theorem le_of_mem_legalWords {n : Nat} (h : n ∈ legalWords) : n ≤ 22208 := by
  obtain ⟨op, hop, hn⟩ := List.mem_flatMap.mp h
  obtain ⟨m, hm, rfl⟩ := List.mem_map.mp hn
  have hmodes := le_of_mem_modeNumbers hm
  have hrow : ∀ op ∈ legalOpcodes, 9 * op + 100 * (2 * 10 ^ operandCount op) ≤ 9 * 22208 + 100 * 2 := by decide
  have := hrow op hop
  omega

/-- Settles O5: the words are counted from the table, and decoded by their digits. -/
theorem legalInstructionWordsAreExactly136 : Obligations.LegalInstructionWordsAreExactly136 := by
  unfold Obligations.LegalInstructionWordsAreExactly136
  refine ⟨legalWords_length, legalWords_nodup, instructionWord_mem_legalWords (.eq (.rel 0) (.rel 0) (.rel 0)),
    fun _ => le_of_mem_legalWords, decode_ok_iff_mem_legalWords, ?excess⟩
  case excess =>
    intro w v1 v2 v3 op hop m hm e he hw
    obtain ⟨hpos, hlast, hdigits, hexcess⟩ := digits_of_word hop hm hw
    exact decode_of_excess hpos hlast hop hdigits v1 v2 v3 (hexcess ▸ he)

end Sys2Proof
end

section
/-! PROOFS. DecodePseudocode: the decoder over the words fetched is the pseudocode of R60, with the order of checks of R65. -/

namespace Sys2Proof.Machine

open Sys2Proof.Spec

/-- What the pseudocode answers where the decoder answers `r`: the instruction's opcode, its located operands and the address
after it, or the fault of the refusal. R60, R62, R65. -/
def pseudoResult (pc : Nat) (rb : Int) : Except DecodeError (Instr × List Int) → Except Fatal (Nat × List Located × Nat)
  | .ok (i, _) => .ok (i.opcode, i.operands.map (locate rb), pc + i.length)
  | .error e => .error (decodeFatal pc e)

/-- The pseudocode's last two lines. R60, R65 (4). -/
def pseudoExcess (w : Int) (modes op n pc : Nat) (os : List Located) : Except Fatal (Nat × List Located × Nat) :=
  if modes / 10 ^ n ≠ 0 then .error ⟨.reservedModeDigits, w⟩ else .ok (op, os, pc + 1 + n)

/-- The excess check of both sides, on an instruction whose operands have been decoded. -/
theorem pseudoExcess_eq_checkExcess {i : Instr} {op : Nat} {os : List Operand} (hi : i.opcode = op ∧ i.operands = os)
    (w : Int) (modes pc : Nat) (rb : Int) (ws : List Int) :
    pseudoExcess w modes op os.length pc (os.map (locate rb)) =
      pseudoResult pc rb (checkExcess w modes os.length i ws) := by
  obtain ⟨rfl, rfl⟩ := hi
  unfold pseudoExcess checkExcess
  by_cases hexcess : modes / 10 ^ i.operands.length = 0
  · rw [if_neg (not_not.mpr hexcess), if_pos hexcess, pseudoResult, Instr.length, Nat.add_assoc]
  · rw [if_pos hexcess, if_neg hexcess]
    rfl

/-- One turn of the pseudocode's loop is one operand of the decoder over the words fetched, where what follows the turn agrees
with what follows the operand. R60, R65 (3.i.a), (3.i.b). -/
theorem pseudoOperands_succ_bind {m : Memory} {pc : Nat} {rb : Int} {modes n k i : Nat}
    {g : List Located → Except Fatal (Nat × List Located × Nat)}
    {f : Operand × List Int → Except DecodeError (Instr × List Int)}
    (h : ∀ o, (pseudoOperands m pc rb modes k (i + 1) >>= fun os => g (locate rb o :: os)) =
      pseudoResult pc rb (f (o, fetchWords m n (pc + (i + 1))))) :
    (pseudoOperands m pc rb modes (k + 1) i >>= g) =
      pseudoResult pc rb (decodeOperand modes i (fetchWords m (n + 1) (pc + i)) >>= f) := by
  cases hread : memRead m ((pc : Int) + i) with
  | error e =>
    obtain ⟨-, rfl⟩ := memRead_error hread
    rw [fetchWords_succ_of_error (by rwa [Nat.cast_add])]
    simp only [pseudoOperands, hread]
    rfl
  | ok v =>
    rw [fetchWords_succ_of_ok (by rwa [Nat.cast_add])]
    simp only [pseudoOperands, hread, decodeOperand]
    rcases decimalDigit (i - 1) modes with _ | _ | _ | digit
    · exact (bind_assoc (pseudoOperands m pc rb modes k (i + 1)) _ g).trans (h (.pos v))
    · exact (bind_assoc (pseudoOperands m pc rb modes k (i + 1)) _ g).trans (h (.imm v))
    · exact (bind_assoc (pseudoOperands m pc rb modes k (i + 1)) _ g).trans (h (.rel v))
    · rfl

/-- A row over the words fetched after the instruction word is the pseudocode's loop over its operands and the check on the
digits above them. -/
theorem pseudoOperands_bind_excess {form : OpForm} {op : Nat} (hform : opForm? op = some form) (m : Memory) (pc : Nat)
    (rb w : Int) (modes : Nat) :
    (pseudoOperands m pc rb modes form.arity 1 >>= pseudoExcess w modes op form.arity pc) =
      pseudoResult pc rb (decodeForm w modes form (fetchWords m 3 (pc + 1))) := by
  cases form with
  | zero i => exact pseudoExcess_eq_checkExcess (opForm_zero hform) w modes pc rb _
  | one mk =>
    refine pseudoOperands_succ_bind fun a => ?_
    exact pseudoExcess_eq_checkExcess (opForm_one hform a) w modes pc rb _
  | two mk =>
    refine pseudoOperands_succ_bind fun a => pseudoOperands_succ_bind fun b => ?_
    exact pseudoExcess_eq_checkExcess (opForm_two hform a b) w modes pc rb _
  | three mk =>
    refine pseudoOperands_succ_bind fun a => pseudoOperands_succ_bind fun b => pseudoOperands_succ_bind fun c => ?_
    exact pseudoExcess_eq_checkExcess (opForm_three hform a b c) w modes pc rb _

/-- The pseudocode over memory is the decoder over the words fetched. R60. -/
theorem pseudoDecode_eq_pseudoResult (m : Memory) (pc : Nat) (rb : Int) :
    pseudoDecode m pc rb = pseudoResult pc rb (decode (fetchWords m maxInstrLength pc)) := by
  unfold pseudoDecode
  cases hread : memRead m pc with
  | error e =>
    obtain ⟨-, rfl⟩ := memRead_error hread
    rw [maxInstrLength, fetchWords_succ_of_error hread]
    simp only [decode, pseudoResult, decodeFatal, Nat.cast_zero, add_zero]
    rfl
  | ok w =>
    rw [maxInstrLength, fetchWords_succ_of_ok hread]
    by_cases hneg : w < 0
    · rw [decode_of_neg _ hneg]
      exact if_pos hneg
    · by_cases hop : w.toNat % 100 ∈ legalOpcodes
      · obtain ⟨form, hform, harity⟩ := opForm_of_mem_legalOpcodes hop
        have hrow : formOfWord? w = some form := by rw [formOfWord?, if_neg hneg, hform]
        refine ((if_neg hneg).trans (if_neg (not_not.mpr hop))).trans ?_
        simp only [decode, hrow]
        rw [← harity]
        exact pseudoOperands_bind_excess hform m pc rb w _
      · rw [decode_of_illegalOpcode _ hop]
        exact (if_neg hneg).trans (if_pos hop)

theorem fetchInstr_of_decode_ok {m : Memory} {pc : Nat} {i : Instr} {rest : List Int}
    (h : decode (fetchWords m maxInstrLength pc) = .ok (i, rest)) : fetchInstr m pc = .ok i := by
  simp only [fetchInstr, h]

theorem fetchInstr_of_decode_error {m : Memory} {pc : Nat} {e : DecodeError}
    (h : decode (fetchWords m maxInstrLength pc) = .error e) : fetchInstr m pc = .error (decodeFatal pc e) := by
  simp only [fetchInstr, h]

/-- Settles O6: both sides are what the decoder answers over the words fetched. -/
theorem fetchedInstructionFollowsTheDecodePseudocode : Obligations.FetchedInstructionFollowsTheDecodePseudocode := by
  unfold Obligations.FetchedInstructionFollowsTheDecodePseudocode
  intro m pc rb
  rw [pseudoDecode_eq_pseudoResult]
  cases hdecode : decode (fetchWords m maxInstrLength pc) with
  | error e =>
    refine ⟨fun f hf => ?_, fun _ _ _ h => nomatch h⟩
    obtain rfl : decodeFatal pc e = f := Except.error.inj hf
    exact fetchInstr_of_decode_error hdecode
  | ok r =>
    obtain ⟨i, rest⟩ := r
    have hi := fetchInstr_of_decode_ok hdecode
    refine ⟨fun _ h => (nomatch h), fun op os npc h => ?_⟩
    cases h
    exact ⟨fetchInstr_end_le hi, i, hi, rfl, rfl, rfl⟩

end Sys2Proof.Machine
end

section
/-! PROOFS. StepRules: the answer of a step, of an IN and of the `STEP` transaction in each case, and that there always is
one. -/

namespace Sys2Proof.Machine

/-! ### The step -/

/-- In `Halted` and `Faulted` a step answers the same state. R55. -/
theorem step_of_not_enabled {s : State} (he : s.rs.enabled = false) : step s = .next s := by
  simp only [step, he, Bool.false_eq_true, if_false]

/-- A step whose fetch raises takes the fault. R56. -/
theorem step_of_fetchInstr_error {s : State} {f : Fatal} (he : s.rs.enabled = true)
    (hf : fetchInstr s.mem s.pc = .error f) : step s = .next (takeFault s f) := by
  simp only [step, he, if_true, hf]

/-- The `STEP` transaction returns the run-state that the step leaves. R91. -/
theorem hostStep_of_next {s t : State} (h : step s = .next t) : hostStep s = .next (t, .runState t.rs) := by
  simp only [hostStep, h]

/-! ### IN -/

theorem execIn_of_empty (dest : Operand) {s : State} (hq : s.inq = []) :
    exec (.inp dest) s = .next (report s .needsInput) := by
  simp only [exec, execIn, hq]

/-- With a word in the queue IN concludes with its store. R76. -/
theorem execIn_of_cons (dest : Operand) {s : State} {x : Int} {rest : List Int} (hq : s.inq = x :: rest) :
    exec (.inp dest) s = conclude s (storeOperand s.mem (locate s.rb dest) x >>= fun m =>
      .ok { commit s 2 with mem := m, inq := rest }) := by
  simp only [exec, execIn, hq]

/-- An IN whose store raises takes the fault. R58, R76. -/
theorem execIn_of_store_error {dest : Operand} {s : State} {x : Int} {rest : List Int} {f : Fatal}
    (hq : s.inq = x :: rest) (hf : storeOperand s.mem (locate s.rb dest) x = .error f) :
    exec (.inp dest) s = .next (takeFault s f) := by
  rw [execIn_of_cons dest hq, hf]
  rfl

/-- An IN whose store answers completes. R76. -/
theorem execIn_of_store_ok {dest : Operand} {s : State} {x : Int} {rest : List Int} {m : Memory}
    (hq : s.inq = x :: rest) (hm : storeOperand s.mem (locate s.rb dest) x = .ok m) :
    exec (.inp dest) s = .next (report { commit s 2 with mem := m, inq := rest } .running) := by
  rw [execIn_of_cons dest hq, hm]
  rfl

/-! ### Totality -/

theorem conclude_next (s : State) (r : Except Fatal State) : ∃ t, conclude s r = .next t := by
  cases r with
  | ok u => exact ⟨report u .running, rfl⟩
  | error f => exact ⟨takeFault s f, rfl⟩

/-- Every instruction answers a next state: an IN with an empty queue waits, HLT halts, and the others conclude. -/
theorem exec_next (i : Instr) (s : State) : ∃ t, exec i s = .next t := by
  cases i with
  | inp dest =>
    cases hq : s.inq with
    | nil => exact ⟨_, execIn_of_empty dest hq⟩
    | cons x rest => exact execIn_of_cons dest hq ▸ conclude_next s _
  | hlt => exact ⟨_, rfl⟩
  | add | mul | lt | eq | out | jnz | jz | arb => exact conclude_next s _

/-- Every step answers a next state: the same one, one with the fault of the fetch, or the instruction's. -/
theorem step_next (s : State) : ∃ t, step s = .next t := by
  cases he : s.rs.enabled with
  | false => exact ⟨s, step_of_not_enabled he⟩
  | true =>
    cases hi : fetchInstr s.mem s.pc with
    | error f => exact ⟨_, step_of_fetchInstr_error he hi⟩
    | ok i => exact step_of_fetchInstr he hi ▸ exec_next i s

/-! ### The run-state reported -/

/-- An instruction reports `Running` or faults, but for an IN that waits and for HLT. R56, R58. -/
theorem exec_reports {i : Instr} {s t : State} (h : exec i s = .next t) :
    (t.rs = .running ∨ t.rs = .faulted) ∨
    (∃ dest, i = .inp dest ∧ s.inq = [] ∧ t = report s .needsInput) ∨ (i = .hlt ∧ t = report (commit s 1) .halted) := by
  obtain ⟨_, rfl⟩ | hwait | hhalt | ⟨_, _, _, _, _, _, -, -, -, -, -, rfl⟩ | ⟨_, _, -, -, rfl⟩ |
    ⟨_, _, _, -, -, rfl⟩ | ⟨_, _, -, -, rfl⟩ := exec_cases h
  · exact .inl (.inr rfl)
  · exact .inr (.inl hwait)
  · exact .inr (.inr hhalt)
  · exact .inl (.inl rfl)
  · exact .inl (.inl rfl)
  · exact .inl (.inl rfl)
  · exact .inl (.inl rfl)

end Sys2Proof.Machine
end

section
/-! PROOFS. Noninterference: a step from two states that differ only in what no step reads, R71. -/

namespace Sys2Proof.Machine

/-- `s` with the components of `o` that no step reads, and its `rs`. R71. -/
def State.withUnread (s o : State) : State :=
  { s with outq := o.outq, rs := o.rs, fcause := o.fcause, fpc := o.fpc, fval := o.fval }

theorem eq_withUnread {s1 s2 : State} (hparams : s1.params = s2.params) (hmem : s1.mem = s2.mem) (hpc : s1.pc = s2.pc)
    (hrb : s1.rb = s2.rb) (hinq : s1.inq = s2.inq) : s2 = s1.withUnread s2 := by
  unfold State.withUnread
  rw [hparams, hmem, hpc, hrb, hinq]

/-- Two states made of `s1` and of `s2` by writing the same components and emitting the same words. -/
inductive SameWrites (s1 s2 : State) : State → State → Prop
  | emitting (m : Memory) (p : Nat) (b : Int) (q emitted : List Int) :
      SameWrites s1 s2 { s1 with mem := m, pc := p, rb := b, inq := q, outq := s1.outq ++ emitted }
        { s2 with mem := m, pc := p, rb := b, inq := q, outq := s2.outq ++ emitted }

/-- Two computations, from `s1` and from `s2`, raise the same error, or complete with the same writes. -/
inductive SameResult (s1 s2 : State) : Except Fatal State → Except Fatal State → Prop
  | raised (f : Fatal) : SameResult s1 s2 (.error f) (.error f)
  | completed {u1 u2 : State} (h : SameWrites s1 s2 u1 u2) : SameResult s1 s2 (.ok u1) (.ok u2)

section

variable {s1 s2 : State}

theorem SameWrites.silent (m : Memory) (p : Nat) (b : Int) (q : List Int) :
    SameWrites s1 s2 { s1 with mem := m, pc := p, rb := b, inq := q }
      { s2 with mem := m, pc := p, rb := b, inq := q } := by
  simpa only [List.append_nil] using SameWrites.emitting (s1 := s1) (s2 := s2) m p b q []

/-- The same computation may come first on both sides. -/
theorem SameResult.bind {α : Type} (x : Except Fatal α) {f1 f2 : α → Except Fatal State}
    (h : ∀ a, SameResult s1 s2 (f1 a) (f2 a)) : SameResult s1 s2 (x >>= f1) (x >>= f2) := by
  cases x with
  | error f => exact .raised f
  | ok a => exact h a

/-- What R71 says of the states `t1` and `t2` that steps from `s1` and `s2` answer. -/
structure SameStep (s1 s2 t1 t2 : State) : Prop where
  mem : t1.mem = t2.mem
  pc : t1.pc = t2.pc
  rb : t1.rb = t2.rb
  inq : t1.inq = t2.inq
  rs : t1.rs = t2.rs
  outq : ∃ q, t1.outq = s1.outq ++ q ∧ t2.outq = s2.outq ++ q
  faulted : t1.rs = .faulted → t1.fcause = t2.fcause ∧ t1.fpc = t2.fpc ∧ t1.fval = t2.fval
  notFaulted : t1.rs ≠ .faulted → (t1.fcause = s1.fcause ∧ t1.fpc = s1.fpc ∧ t1.fval = s1.fval) ∧
    (t2.fcause = s2.fcause ∧ t2.fpc = s2.fpc ∧ t2.fval = s2.fval)

/-- A report other than `Faulted` after the same writes. -/
theorem SameWrites.report {u1 u2 : State} (h : SameWrites s1 s2 u1 u2) {r : RunState} (hr : r ≠ .faulted) :
    SameStep s1 s2 (report u1 r) (report u2 r) := by
  obtain ⟨m, p, b, q, emitted⟩ := h
  exact
    { mem := rfl
      pc := rfl
      rb := rfl
      inq := rfl
      rs := rfl
      outq := ⟨emitted, rfl, rfl⟩
      faulted := fun h => absurd h hr
      notFaulted := fun _ => ⟨⟨rfl, rfl, rfl⟩, rfl, rfl, rfl⟩ }

end

section

variable {s o : State}

/-- The fault registers are written from the error, `pc` and the width. R106. -/
theorem takeFault_sameStep (f : Fatal) :
    SameStep s (s.withUnread o) (takeFault s f) (takeFault (s.withUnread o) f) where
  mem := rfl
  pc := rfl
  rb := rfl
  inq := rfl
  rs := rfl
  outq := ⟨[], (List.append_nil _).symm, (List.append_nil _).symm⟩
  faulted _ := ⟨rfl, rfl, rfl⟩
  notFaulted h := absurd rfl h

/-! ### The operations that instructions share -/

/-- The same result concludes two steps the same way. -/
theorem conclude_sameStep {r1 r2 : Except Fatal State} (h : SameResult s (s.withUnread o) r1 r2) {t1 t2 : State}
    (h1 : conclude s r1 = .next t1) (h2 : conclude (s.withUnread o) r2 = .next t2) :
    SameStep s (s.withUnread o) t1 t2 := by
  cases h with
  | raised f =>
    cases h1
    cases h2
    exact takeFault_sameStep f
  | completed h =>
    cases h1
    cases h2
    exact h.report nofun

theorem computeAndStore_sameResult (f : Int → Int → Except Fatal Int) (a b dest : Operand) :
    SameResult s (s.withUnread o) (computeAndStore f a b dest s) (computeAndStore f a b dest (s.withUnread o)) :=
  .bind _ fun _ => .bind _ fun _ => .bind _ fun _ => .completed (.silent _ _ _ _)

theorem jumpWhen_sameResult (taken : Int → Bool) (a b : Operand) :
    SameResult s (s.withUnread o) (jumpWhen taken a b s) (jumpWhen taken a b (s.withUnread o)) := by
  refine .bind _ fun xy => ?_
  dsimp only
  cases taken xy.1 with
  | true => exact .bind _ fun _ => .completed (.silent _ _ _ _)
  | false => exact .completed (.silent _ _ _ _)

variable {t1 t2 : State}

/-- The test of the input queue comes out the same, and so does the store of its head. -/
theorem execIn_sameStep {dest : Operand} (h1 : execIn dest s = .next t1)
    (h2 : execIn dest (s.withUnread o) = .next t2) : SameStep s (s.withUnread o) t1 t2 := by
  have hinq : (s.withUnread o).inq = s.inq := rfl
  unfold execIn at h1 h2
  rw [hinq] at h2
  cases hq : s.inq with
  | nil =>
    rw [hq] at h1 h2
    cases h1
    cases h2
    exact (SameWrites.silent s.mem s.pc s.rb s.inq).report nofun
  | cons x rest =>
    rw [hq] at h1 h2
    exact conclude_sameStep (.bind _ fun _ => .completed (.silent _ _ _ _)) h1 h2

/-- An instruction executes the same way from two states that differ only in what no step reads. R71. -/
theorem exec_sameStep {i : Instr} (h1 : exec i s = .next t1) (h2 : exec i (s.withUnread o) = .next t2) :
    SameStep s (s.withUnread o) t1 t2 := by
  cases i with
  | add a b dest => exact conclude_sameStep (computeAndStore_sameResult _ a b dest) h1 h2
  | mul a b dest => exact conclude_sameStep (computeAndStore_sameResult _ a b dest) h1 h2
  | lt a b dest => exact conclude_sameStep (computeAndStore_sameResult _ a b dest) h1 h2
  | eq a b dest => exact conclude_sameStep (computeAndStore_sameResult _ a b dest) h1 h2
  | inp dest => exact execIn_sameStep h1 h2
  | out a => exact conclude_sameStep (.bind _ fun x => .completed (.emitting _ _ _ _ [x])) h1 h2
  | jnz a b => exact conclude_sameStep (jumpWhen_sameResult _ a b) h1 h2
  | jz a b => exact conclude_sameStep (jumpWhen_sameResult _ a b) h1 h2
  | arb a => exact conclude_sameStep (.bind _ fun _ => .bind _ fun _ => .completed (.silent _ _ _ _)) h1 h2
  | hlt =>
    cases h1
    cases h2
    exact (SameWrites.silent s.mem (s.pc + 1) s.rb s.inq).report nofun

/-- Both steps fetch the same instruction, or raise the same error. R61, R71. -/
theorem step_sameStep (he : s.rs.enabled = true) (heo : o.rs.enabled = true) (h1 : step s = .next t1)
    (h2 : step (s.withUnread o) = .next t2) : SameStep s (s.withUnread o) t1 t2 := by
  cases hi : fetchInstr s.mem s.pc with
  | error f =>
    rw [step_of_fetchInstr_error he hi] at h1
    rw [step_of_fetchInstr_error (s := s.withUnread o) heo hi] at h2
    cases h1
    cases h2
    exact takeFault_sameStep f
  | ok i =>
    rw [step_of_fetchInstr he hi] at h1
    rw [step_of_fetchInstr (s := s.withUnread o) heo hi] at h2
    exact exec_sameStep h1 h2

end

/-- Settles O44: the second state is the first with other contents in what no step reads, and every operation of a step
writes the same in both. -/
theorem stepDependsOnlyOnMemoryPcBaseAndInput : Obligations.StepDependsOnlyOnMemoryPcBaseAndInput := by
  unfold Obligations.StepDependsOnlyOnMemoryPcBaseAndInput
  intro s1 s2 t1 t2 hparams hmem hpc hrb hinq he1 he2 h1 h2
  have hs2 := eq_withUnread hparams hmem hpc hrb hinq
  rw [hs2] at h2
  obtain ⟨hmem, hpc, hrb, hinq, hrs, houtq, hfaulted, hnot⟩ := step_sameStep he1 he2 h1 h2
  exact ⟨hmem, hpc, hrb, hinq, hrs, houtq, hfaulted, hnot⟩

end Sys2Proof.Machine
end

section
/-! PROOFS. OperandUse: what a read and a store do by addressing mode, and that an instruction that completes has accessed
every operand, R64, R66 to R68. -/

namespace Sys2Proof.Machine

/-- Settles O10: a mode's value is what `locate` and `readOperand` compute to, and a load raises as its read does. -/
theorem readOperandGivesTheValueOfItsMode : Obligations.ReadOperandGivesTheValueOfItsMode := by
  unfold Obligations.ReadOperandGivesTheValueOfItsMode
  intro m rb v
  refine ⟨rfl, rfl, rfl, fun o f h => ?_⟩
  obtain ⟨a, -, -, rfl⟩ := readOperand_error h
  rfl

/-- Settles O11: `storeOperand` raises on the immediate form and writes at the address of the other two. -/
theorem storeOperandWritesOrRaisesByMode : Obligations.StoreOperandWritesOrRaisesByMode := by
  unfold Obligations.StoreOperandWritesOrRaisesByMode
  intro m rb v x
  exact ⟨rfl, storeOperand_of_address x rfl, storeOperand_of_address x rfl⟩

/-! ### An instruction that completes has accessed every operand -/

/-- The operand, located with the base `rb`, names no cell outside memory. -/
def Accessible (m : Memory) (rb : Int) (o : Operand) : Prop :=
  ∀ a, (locate rb o).address = some a → m.Valid a

section

variable {m : Memory} {rb x : Int} {o : Operand}

theorem accessible_of_read (h : readOperand m (locate rb o) = .ok x) : Accessible m rb o := by
  intro a ha
  rw [readOperand_of_address ha] at h
  exact (memRead_ok h).1

theorem accessible_of_store {m' : Memory} (h : storeOperand m (locate rb o) x = .ok m') : Accessible m rb o := by
  intro a ha
  rw [storeOperand_of_address x ha] at h
  exact (memWrite_ok h).1

end

section

variable {s : State}

theorem computeAndStore_accessible {f : Int → Int → Except Fatal Int} {a b dest : Operand} {u : State}
    (h : computeAndStore f a b dest s = .ok u) : ∀ o ∈ [a, b, dest], Accessible s.mem s.rb o := by
  obtain ⟨x, y, r, m, addr, hx, hy, -, ha, hm, -⟩ := computeAndStore_ok h
  rw [← storeOperand_of_address r ha] at hm
  simp only [List.forall_mem_cons]
  exact ⟨accessible_of_read hx, accessible_of_read hy, accessible_of_store hm, List.forall_mem_nil _⟩

theorem jumpWhen_accessible {taken : Int → Bool} {a b : Operand} {u : State} (h : jumpWhen taken a b s = .ok u) :
    ∀ o ∈ [a, b], Accessible s.mem s.rb o := by
  obtain ⟨x, y, hx, hy, -⟩ := jumpWhen_ok h
  simp only [List.forall_mem_cons]
  exact ⟨accessible_of_read hx, accessible_of_read hy, List.forall_mem_nil _⟩

/-- A step that concludes as `Running` was not cut short by an error. -/
theorem conclude_running {t : State} {r : Except Fatal State} (h : conclude s r = .next t) (hr : t.rs = .running) :
    ∃ u, r = .ok u := by
  obtain ⟨u, hu, -⟩ | ⟨f, -, rfl⟩ := conclude_cases h
  · exact ⟨u, hu⟩
  · cases hr

/-- Every operand of an instruction that completes has been read or stored through. R68. -/
theorem exec_running_accessible {i : Instr} {t : State} (h : exec i s = .next t) (hr : t.rs = .running) :
    ∀ o ∈ i.operands, Accessible s.mem s.rb o := by
  cases i with
  | add | mul | lt | eq =>
    obtain ⟨u, hu⟩ := conclude_running h hr
    exact computeAndStore_accessible hu
  | jnz | jz =>
    obtain ⟨u, hu⟩ := conclude_running h hr
    exact jumpWhen_accessible hu
  | inp dest =>
    cases hq : s.inq with
    | nil =>
      rw [execIn_of_empty dest hq] at h
      cases h
      cases hr
    | cons x rest =>
      rw [execIn_of_cons dest hq] at h
      obtain ⟨u, hu⟩ := conclude_running h hr
      obtain ⟨m, hm, -⟩ := bind_ok.mp hu
      exact List.forall_mem_singleton.mpr (accessible_of_store hm)
  | out a | arb a =>
    obtain ⟨u, hu⟩ := conclude_running h hr
    obtain ⟨x, hx, -⟩ := bind_ok.mp hu
    exact List.forall_mem_singleton.mpr (accessible_of_read hx)
  | hlt => exact List.forall_mem_nil _

/-- An instruction with an operand outside memory faults, but for an IN that waits. R64, R68. -/
theorem exec_of_not_accessible {i : Instr} {o : Operand} (ho : o ∈ i.operands) (hbad : ¬ Accessible s.mem s.rb o) :
    ∃ t, exec i s = .next t ∧
      (t.rs = .faulted ∨ (t.rs = .needsInput ∧ s.inq = [] ∧ ∃ dest, i = .inp dest)) := by
  obtain ⟨t, ht⟩ := exec_next i s
  refine ⟨t, ht, ?_⟩
  obtain (hrunning | hfaulted) | ⟨dest, hi, hq, rfl⟩ | ⟨rfl, -⟩ := exec_reports ht
  · exact absurd (exec_running_accessible ht hrunning o ho) hbad
  · exact .inl hfaulted
  · exact .inr ⟨rfl, hq, dest, hi⟩
  · cases ho

end

/-! ### Relative addresses that are no words -/

/-- The sum of two words, in the bounds of `XLEN + 1` bits that two words reach. R64. -/
theorem relative_sum_range {p : Config.Params} {b v : Int} (hb : Word.InRange p b) (hv : Word.InRange p v) :
    2 * Config.WMIN p ≤ b + v ∧ b + v ≤ 2 * Config.WMAX p := by
  obtain ⟨hb0, hb1⟩ := hb
  obtain ⟨hv0, hv1⟩ := hv
  omega

/-- What is no word is no address of a memory that R6 allows. -/
theorem not_valid_of_not_inRange {p : Config.Params} {m : Memory} {a : Int} (hsize : (m.size : Int) ≤ Config.WMAX p)
    (ha : ¬ Word.InRange p a) : ¬ m.Valid a :=
  fun ⟨h0, h1⟩ => ha (Word.inRange_of_nonneg p h0 (h1.le.trans hsize))

/-- An OUT whose load raises takes the fault. R77. -/
theorem execOut_of_read_error {a : Operand} {s : State} {f : Fatal} (h : readOperand s.mem (locate s.rb a) = .error f) :
    exec (.out a) s = .next (takeFault s f) := by
  simp only [exec, execOut, h]
  rfl

/-- Settles O12: such a sum is an address outside memory, and an instruction that completes has accessed every operand. -/
theorem relativeSumOutsideWordsNeverCompletes : Obligations.RelativeSumOutsideWordsNeverCompletes := by
  unfold Obligations.RelativeSumOutsideWordsNeverCompletes
  intro s v
  refine ⟨rfl, relative_sum_range, fun hsize hword => ?_⟩
  have hinvalid : ¬ s.mem.Valid (s.rb + v) := not_valid_of_not_inRange hsize hword
  have hread : readOperand s.mem (locate s.rb (.rel v)) = .error ⟨.memoryBounds, s.rb + v⟩ :=
    memRead_of_not_valid hinvalid
  have hstore (x : Int) : storeOperand s.mem (locate s.rb (.rel v)) x = .error ⟨.memoryBounds, s.rb + v⟩ :=
    memWrite_of_not_valid x hinvalid
  exact ⟨hread, hstore, execOut_of_read_error hread, fun x _ hq => execIn_of_store_error hq (hstore x),
    fun i hi => exec_of_not_accessible hi fun h => hinvalid (h _ rfl)⟩

end Sys2Proof.Machine
end

section
/-! PROOFS. Sequencer: which instruction a step runs, and the run-states it goes through, R54 to R59. -/

namespace Sys2Proof.Machine

/-- Settles O13: an enabled step adds nothing to the executor on the instruction fetched. -/
theorem stepRunsTheDecodedInstruction : Obligations.StepRunsTheDecodedInstruction := fun _ _ he hi =>
  step_of_fetchInstr he hi

/-- Settles O16: totality of the instructions gives that of the step. -/
theorem everyStepAnswersNext : Obligations.EveryStepAnswersNext := ⟨step_next, exec_next⟩

/-! ### `Halted` and `Faulted` -/

/-- A state that a step leaves as it is, any number of steps leave so. -/
theorem runSteps_of_step_self {s : State} (h : step s = .next s) (k : Nat) : runSteps k s = .next s := by
  induction k with
  | zero => rfl
  | succ k ih => exact (runSteps_succ k h).trans ih

/-- Settles O15: no step is enabled there, so the state is a fixed point of the step. -/
theorem stepsInTerminalStatesChangeNothing : Obligations.StepsInTerminalStatesChangeNothing := by
  unfold Obligations.StepsInTerminalStatesChangeNothing
  intro s hterminal
  have hstep : step s = .next s := step_of_not_enabled ((enabled_eq_false s.rs).mpr hterminal)
  exact ⟨hostStep_of_next hstep, runSteps_of_step_self hstep⟩

/-! ### The transition table -/

/-- Only `RESET` and `STEP` write `rs`. R59. -/
theorem transact_rs {tx : Transaction} {s t : State} {reply : Reply} (h : transact tx s = .next (t, reply))
    (hreset : ∀ image input0, tx ≠ .reset image input0) (hstep : tx ≠ .step) : t.rs = s.rs := by
  cases tx with
  | reset image input0 => exact absurd rfl (hreset image input0)
  | step => exact absurd rfl hstep
  | pushInput v =>
    obtain ⟨-, rfl, -⟩ := hostPushInput_next h
    rfl
  | popOutput => obtain ⟨-, rfl, -⟩ | ⟨_, _, -, rfl, -⟩ := hostPopOutput_next h <;> rfl
  | memRead a =>
    obtain ⟨rfl, -⟩ := hostMemRead_next h
    rfl
  | memWrite a v =>
    obtain ⟨-, _, -, rfl, -⟩ := hostMemWrite_next h
    rfl
  | readInput | readOutput | readStatus =>
    cases h
    rfl

/-- Settles O20: the rows of an enabled step by what the fetch answers, and by what the instruction reports. -/
theorem runStateFollowsTheTransitionTable : Obligations.RunStateFollowsTheTransitionTable := by
  unfold Obligations.RunStateFollowsTheTransitionTable
  intro tx s t reply h
  refine ⟨?reset, ?disabled, ?enabled, transact_rs h⟩
  case reset =>
    rintro image input0 rfl
    obtain ⟨-, -, -, rfl, -⟩ := hostReset_next h
    exact ⟨rfl, rfl⟩
  case disabled =>
    rintro rfl he
    have hs := (hostStep_next h).1
    rw [step_of_not_enabled he] at hs
    exact (Host.Outcome.next.inj hs).symm
  case enabled =>
    rintro rfl he
    have hs := (hostStep_next h).1
    refine ⟨fun f hf => ?decodeRaises, fun dest hi hq => ?waits, fun hi => ?halts, fun i hi hhlt hinp => ?executes⟩
    case decodeRaises =>
      rw [step_of_fetchInstr_error he hf] at hs
      cases hs
      rfl
    case waits =>
      rw [step_of_fetchInstr he hi, execIn_of_empty dest hq] at hs
      exact (Host.Outcome.next.inj hs).symm
    case halts =>
      rw [step_of_fetchInstr he hi] at hs
      exact (Host.Outcome.next.inj hs).symm
    case executes =>
      rw [step_of_fetchInstr he hi] at hs
      obtain hreports | ⟨dest, hi, hq, -⟩ | ⟨hi, -⟩ := exec_reports hs
      · exact hreports
      · exact absurd hi (hinp hq dest)
      · exact absurd hi hhlt

/-! ### The pause at an IN -/

theorem step_of_empty_input {s : State} {dest : Operand} (he : s.rs.enabled = true)
    (hi : fetchInstr s.mem s.pc = .ok (.inp dest)) (hq : s.inq = []) : step s = .next (report s .needsInput) :=
  (step_of_fetchInstr he hi).trans (execIn_of_empty dest hq)

/-- The paused core stands at the same IN with the same empty queue, so every further step leaves it as it is. R58. -/
theorem runSteps_of_empty_input {s : State} {dest : Operand} (he : s.rs.enabled = true)
    (hi : fetchInstr s.mem s.pc = .ok (.inp dest)) (hq : s.inq = []) (k : Nat) :
    runSteps (k + 1) s = .next (report s .needsInput) := by
  have hagain : step (report s .needsInput) = .next (report s .needsInput) := step_of_empty_input rfl hi hq
  exact (runSteps_succ k (step_of_empty_input he hi hq)).trans (runSteps_of_step_self hagain k)

/-- Settles O21: the paused state is a fixed point of the step; the fetch comes before the test of the queue, and the store
after it. -/
theorem emptyInputQueuePausesWithoutChange : Obligations.EmptyInputQueuePausesWithoutChange := by
  unfold Obligations.EmptyInputQueuePausesWithoutChange
  refine ⟨fun s dest he hi hq => runSteps_of_empty_input he hi hq, ?decodeFault, ?storeFault⟩
  case decodeFault => exact fun s f he hf _ => ⟨_, step_of_fetchInstr_error he hf, rfl⟩
  case storeFault =>
    exact fun s dest x rest f he hi hq hf =>
      ⟨_, (step_of_fetchInstr he hi).trans (execIn_of_store_error hq hf), rfl⟩

/-- Settles O22: the word pushed is the whole queue, so the IN takes it and stores it. -/
theorem pushedInputResumesThePausedCore : Obligations.PushedInputResumesThePausedCore := by
  unfold Obligations.PushedInputResumesThePausedCore
  intro s dest addr v hwf hv hrs hq hi ha hvalid
  obtain ⟨m, hm⟩ : ∃ m, memWrite s.mem addr v = .ok m := ⟨_, memWrite_of_valid v hvalid⟩
  have hpush : transact (.pushInput v) s = .next ({ s with inq := s.inq ++ [v] }, .nothing) := if_pos hv
  rw [hq, List.nil_append] at hpush
  have hstep := (step_of_fetchInstr (s := { s with inq := [v] }) (by rw [hrs]; rfl) hi).trans
    (execIn_of_store_ok rfl ((storeOperand_of_address v ha).trans hm))
  exact ⟨_, _, hpush, hrs, hostStep_of_next hstep, memRead_memWrite_same hwf hm, rfl, rfl⟩

end Sys2Proof.Machine
end

section
/-! PROOFS. Arithmetic: the whole result of the instructions that compute and store, and ADD and MUL, R73 to R75. -/

namespace Sys2Proof.Machine

open Spec

/-- An instruction that runs the shared executor with `g`, where `g` answers `f` whenever `f` is a word, stores `f`: the
write of the result is the only change of memory, and `pc` and `rs` the only others. R56, R68. -/
theorem storesResult_of_computeAndStore {mk : Operand → Operand → Operand → Instr} {f : Int → Int → Int}
    {g : Config.Params → Int → Int → Except Fatal Int}
    (hexec : ∀ a b dest s, exec (mk a b dest) s = conclude s (computeAndStore (g s.params) a b dest s))
    (hg : ∀ p x y, Word.InRange p (f x y) → g p x y = .ok (f x y)) : StoresResult mk f := by
  intro a b dest s x y addr hwf hx hy hword ha hvalid
  obtain ⟨m, hm⟩ : ∃ m, memWrite s.mem addr (f x y) = .ok m := ⟨_, memWrite_of_valid (f x y) hvalid⟩
  have hrun : exec (mk a b dest) s = .next (report { commit s 4 with mem := m } .running) := by
    rw [hexec, computeAndStore_of_ok hx hy (hg s.params x y hword) ha hm]
    rfl
  exact ⟨_, hrun, memRead_memWrite_same hwf hm, fun _ hc => memRead_memWrite_other hm hc, memWrite_size hm, rfl⟩

/-- Settles O24: ADD computes the sum, which the range check leaves as it is where it is a word. -/
theorem addStoresTheSum : Obligations.AddStoresTheSum :=
  storesResult_of_computeAndStore (fun _ _ _ _ => rfl) fun _ _ _ hword => narrow_of_inRange hword

/-- Settles O25: MUL computes the product, which the range check leaves as it is where it is a word. -/
theorem mulStoresTheProduct : Obligations.MulStoresTheProduct :=
  storesResult_of_computeAndStore (fun _ _ _ _ => rfl) fun _ _ _ hword => narrow_of_inRange hword

end Sys2Proof.Machine
end

section
/-! PROOFS. InputOutput: the whole result of IN and OUT and their faults, R76, R77, and the queues along every history of a
core, R78. -/

namespace Sys2Proof.Machine

open Spec

/-! ### Accesses outside memory -/

/-- A load through an address outside memory raises. R66. -/
theorem readOperand_of_not_valid {m : Memory} {o : Located} {a : Int} (ha : o.address = some a) (hinvalid : ¬ m.Valid a) :
    readOperand m o = .error ⟨.memoryBounds, a⟩ :=
  (readOperand_of_address ha).trans (memRead_of_not_valid hinvalid)

/-- A store through an address outside memory raises. R67. -/
theorem storeOperand_of_not_valid {m : Memory} {o : Located} {a : Int} (x : Int) (ha : o.address = some a)
    (hinvalid : ¬ m.Valid a) : storeOperand m o x = .error ⟨.memoryBounds, a⟩ :=
  (storeOperand_of_address x ha).trans (memWrite_of_not_valid x hinvalid)

/-! ### IN and OUT -/

/-- An OUT whose load answers completes. R77. -/
theorem execOut_of_read_ok {a : Operand} {s : State} {x : Int} (hx : readOperand s.mem (locate s.rb a) = .ok x) :
    exec (.out a) s = .next (report { commit s 2 with outq := s.outq ++ [x] } .running) := by
  simp only [exec, execOut, hx]
  rfl

/-- Settles O30: the write of the head of the queue is the only change of memory. -/
theorem inStoresTheHeadOfTheInputQueue : Obligations.InStoresTheHeadOfTheInputQueue := by
  unfold Obligations.InStoresTheHeadOfTheInputQueue
  intro dest s x rest addr hwf hq ha hvalid
  obtain ⟨m, hm⟩ : ∃ m, memWrite s.mem addr x = .ok m := ⟨_, memWrite_of_valid x hvalid⟩
  have hrun := execIn_of_store_ok hq ((storeOperand_of_address x ha).trans hm)
  exact ⟨_, hrun, memRead_memWrite_same hwf hm, fun _ hc => memRead_memWrite_other hm hc, memWrite_size hm, rfl⟩

/-- Settles O31: with a word to take, what the store raises is the fault of the IN, taken in the state it began in. -/
theorem inFaultsKeepTheInputQueue : Obligations.InFaultsKeepTheInputQueue := by
  unfold Obligations.InFaultsKeepTheInputQueue
  intro dest s hne
  obtain ⟨x, rest, hq⟩ := List.exists_cons_of_ne_nil hne
  refine ⟨?immediate, ?outside⟩
  case immediate =>
    rintro v rfl
    have hstore : storeOperand s.mem (locate s.rb (.imm v)) x = .error ⟨.writeToImmediate, v⟩ := rfl
    exact execIn_of_store_error hq hstore
  case outside => exact fun addr ha hinvalid => execIn_of_store_error hq (storeOperand_of_not_valid x ha hinvalid)

/-- Settles O32: OUT emits what its load answers, and faults with what it raises. -/
theorem outAppendsTheOperandToTheOutputQueue : Obligations.OutAppendsTheOperandToTheOutputQueue := by
  unfold Obligations.OutAppendsTheOperandToTheOutputQueue
  exact fun a s => ⟨fun x hx => execOut_of_read_ok hx,
    fun addr ha hinvalid => execOut_of_read_error (readOperand_of_not_valid ha hinvalid)⟩

/-! ### The queues along a step -/

/-- An IN that completes takes from the queue the word that its cell then holds. R76. -/
theorem execIn_running_queues {dest : Operand} {s t : State} {addr v : Int} (hwf : s.mem.wf = true)
    (h : exec (.inp dest) s = .next t) (hr : t.rs = .running) (ha : (locate s.rb dest).address = some addr)
    (hv : memRead t.mem addr = .ok v) : s.inq = v :: t.inq ∧ t.outq = s.outq := by
  obtain ⟨-, rfl⟩ | ⟨x, rest, m, addr', hq, ha', hm, rfl⟩ | ⟨-, f, rfl⟩ := execIn_cases h
  · cases hr
  · obtain rfl : addr' = addr := Option.some.inj (ha'.symm.trans ha)
    obtain rfl : x = v := Except.ok.inj ((memRead_memWrite_same hwf hm).symm.trans hv)
    exact ⟨hq, rfl⟩
  · cases hr

/-- An OUT whose load answers appends the word it read and takes none. R77. -/
theorem execOut_read_queues {a : Operand} {s t : State} {v : Int} (h : exec (.out a) s = .next t)
    (hv : readOperand s.mem (locate s.rb a) = .ok v) : t.inq = s.inq ∧ t.outq = s.outq ++ [v] := by
  rw [execOut_of_read_ok hv] at h
  cases h
  exact ⟨rfl, rfl⟩

/-- An instruction that is no IN and no OUT, or that does not complete, leaves both queues as they are. R76 to R78. -/
theorem exec_keeps_queues {i : Instr} {s t : State} (h : exec i s = .next t)
    (hn : t.rs = .running → ∀ o, i ≠ .inp o ∧ i ≠ .out o) : t.inq = s.inq ∧ t.outq = s.outq := by
  obtain ⟨f, rfl⟩ | ⟨_, -, -, rfl⟩ | ⟨-, rfl⟩ | ⟨dest, _, _, _, _, q, -, -, -, -, hq, rfl⟩ | ⟨a, _, hi, -, rfl⟩ |
    ⟨_, _, _, -, -, rfl⟩ | ⟨_, _, -, -, rfl⟩ := exec_cases h
  · exact ⟨rfl, rfl⟩
  · exact ⟨rfl, rfl⟩
  · exact ⟨rfl, rfl⟩
  · obtain ⟨rfl, -⟩ | ⟨-, hi⟩ := hq
    · exact ⟨rfl, rfl⟩
    · exact absurd hi (hn rfl dest).1
  · exact absurd hi (hn rfl a).2
  · exact ⟨rfl, rfl⟩
  · exact ⟨rfl, rfl⟩

/-- A step that completes no IN and no OUT leaves both queues as they are. -/
theorem step_keeps_queues {s t : State} (h : step s = .next t)
    (hn : s.rs.enabled = true → t.rs = .running → ∀ o : Operand,
      fetchInstr s.mem s.pc ≠ .ok (.inp o) ∧ fetchInstr s.mem s.pc ≠ .ok (.out o)) :
    t.inq = s.inq ∧ t.outq = s.outq := by
  obtain ⟨-, rfl⟩ | ⟨-, f, -, rfl⟩ | ⟨he, i, hi, hexec⟩ := step_cases h
  · exact ⟨rfl, rfl⟩
  · exact ⟨rfl, rfl⟩
  · refine exec_keeps_queues hexec fun hr o => ?_
    obtain ⟨hin, hout⟩ := hn he hr o
    exact ⟨fun hio => hin (hio ▸ hi), fun hio => hout (hio ▸ hi)⟩

/-! ### The queues along a history -/

section

variable {input0 fed received emitted drained : List Int} {s : State}

/-- A history is made of transactions from a `RESET` on. -/
theorem reachable_of_queueHistory (h : QueueHistory input0 fed received emitted drained s) : Reachable s := by
  induction h with
  | reset image t reply s h =>
    obtain ⟨hsize, himage, hinput, rfl, -⟩ := hostReset_next h
    exact .reset s.params image input0 hsize himage hinput
  | push v _ h ih => exact .transact _ _ _ _ ih h
  | pop v _ h ih => exact .transact _ _ _ _ ih h
  | popEmpty _ h ih => exact .transact _ _ _ _ ih h
  | memWrite a v _ h ih => exact .transact _ _ _ _ ih h
  | executedIn _ _ _ _ _ _ h _ _ _ ih => exact .transact _ _ .step _ ih (hostStep_of_next h)
  | executedOut _ _ _ _ _ h _ _ ih => exact .transact _ _ .step _ ih (hostStep_of_next h)
  | otherStep _ h _ ih => exact .transact _ _ .step _ ih (hostStep_of_next h)

theorem mem_wf_of_queueHistory (h : QueueHistory input0 fed received emitted drained s) : s.mem.wf = true :=
  (reachableStatesSatisfyTheInvariants s (reachable_of_queueHistory h)).memWf

/-- R78 of both queues at once, by induction on the history: each event moves a word at one end of a queue, or none. -/
theorem queues_of_queueHistory (h : QueueHistory input0 fed received emitted drained s) :
    fed = received ++ s.inq ∧ emitted = drained ++ s.outq := by
  induction h with
  | reset image t reply s h =>
    obtain ⟨-, -, -, rfl, -⟩ := hostReset_next h
    exact ⟨rfl, rfl⟩
  | push v _ h ih =>
    obtain ⟨hfed, hemitted⟩ := ih
    obtain ⟨-, rfl, -⟩ := hostPushInput_next h
    exact ⟨by rw [hfed, List.append_assoc], hemitted⟩
  | pop v _ h ih =>
    obtain ⟨hfed, hemitted⟩ := ih
    obtain ⟨-, -, hreply⟩ | ⟨_, rest, hq, rfl, hreply⟩ := hostPopOutput_next h
    · cases hreply
    · cases hreply
      exact ⟨hfed, by rw [hemitted, hq, List.append_cons]⟩
  | popEmpty _ h ih =>
    obtain ⟨-, rfl, -⟩ | ⟨_, _, -, -, hreply⟩ := hostPopOutput_next h
    · exact ih
    · cases hreply
  | memWrite a v _ h ih =>
    obtain ⟨-, _, -, rfl, -⟩ := hostMemWrite_next h
    exact ih
  | executedIn dest addr v hs hi he h hr ha hv ih =>
    obtain ⟨hfed, hemitted⟩ := ih
    rw [step_of_fetchInstr he hi] at h
    obtain ⟨hinq, houtq⟩ := execIn_running_queues (mem_wf_of_queueHistory hs) h hr ha hv
    exact ⟨by rw [hfed, hinq, List.append_cons], by rw [hemitted, houtq]⟩
  | executedOut a v _ hi he h _ hv ih =>
    obtain ⟨hfed, hemitted⟩ := ih
    rw [step_of_fetchInstr he hi] at h
    obtain ⟨hinq, houtq⟩ := execOut_read_queues h hv
    exact ⟨by rw [hfed, hinq], by rw [hemitted, houtq, List.append_assoc]⟩
  | otherStep _ h hn ih =>
    obtain ⟨hinq, houtq⟩ := step_keeps_queues h hn
    rwa [hinq, houtq]

end

/-- Settles O45, by induction on the history; what an IN stored is read back from a memory that the invariants of
reachable states keep in canonical form. -/
theorem queuesAreFirstInFirstOut : Obligations.QueuesAreFirstInFirstOut := by
  unfold Obligations.QueuesAreFirstInFirstOut
  exact fun _ _ _ _ _ _ h => queues_of_queueHistory h

end Sys2Proof.Machine
end

section
/-! PROOFS. Jump: the whole result of JNZ and JZ, their faults in order, and a jump beyond memory, R79 to R81. -/

namespace Sys2Proof.Machine

open Spec

/-! ### The two loads, where one raises -/

theorem readTwo_of_first_error {m : Memory} {o1 o2 : Located} {f : Fatal} (h : readOperand m o1 = .error f) :
    readTwo m o1 o2 = .error f := bind_error.mpr (.inl h)

theorem readTwo_of_second_error {m : Memory} {o1 o2 : Located} {x : Int} {f : Fatal} (hx : readOperand m o1 = .ok x)
    (h : readOperand m o2 = .error f) : readTwo m o1 o2 = .error f :=
  bind_error.mpr (.inr ⟨x, hx, bind_error.mpr (.inl h)⟩)

/-! ### The zero test and the target -/

@[simp] theorem isZero_eq_true {x : Int} : isZero x = true ↔ x = 0 := decide_eq_true_iff

@[simp] theorem isZero_eq_false {x : Int} : isZero x = false ↔ x ≠ 0 := decide_eq_false_iff_not

theorem jumpTarget_of_nonneg {y : Int} (h : 0 ≤ y) : jumpTarget y = .ok y.toNat := if_neg h.not_gt

theorem jumpTarget_of_neg {y : Int} (h : y < 0) : jumpTarget y = .error ⟨.pcRange, y⟩ := if_pos h

/-! ### The shared executor of JNZ and JZ, run -/

section

variable {taken : Int → Bool} {a b : Operand} {s : State} {x y : Int} {f : Fatal}

theorem jumpWhen_of_readTwo_error (h : readTwo s.mem (locate s.rb a) (locate s.rb b) = .error f) :
    jumpWhen taken a b s = .error f := bind_error.mpr (.inl h)

/-- Both operands loaded and the jump taken, its target decides. R57, R81. -/
theorem jumpWhen_of_taken (hx : readOperand s.mem (locate s.rb a) = .ok x)
    (hy : readOperand s.mem (locate s.rb b) = .ok y) (ht : taken x = true) :
    jumpWhen taken a b s = jumpTarget y >>= fun target => .ok { commit s 3 with pc := target } := by
  rw [jumpWhen, readTwo_ok.mpr ⟨hx, hy⟩]
  exact if_pos ht

/-- Both operands loaded and the jump not taken, the target is not examined. R81 (e). -/
theorem jumpWhen_of_not_taken (hx : readOperand s.mem (locate s.rb a) = .ok x)
    (hy : readOperand s.mem (locate s.rb b) = .ok y) (ht : taken x = false) :
    jumpWhen taken a b s = .ok (commit s 3) := by
  rw [jumpWhen, readTwo_ok.mpr ⟨hx, hy⟩]
  exact if_neg (ne_true_of_eq_false ht)

/-- A jump taken to a target that is not negative completes there. -/
theorem conclude_jumpWhen_of_taken (hx : readOperand s.mem (locate s.rb a) = .ok x)
    (hy : readOperand s.mem (locate s.rb b) = .ok y) (ht : taken x = true) (hpos : 0 ≤ y) :
    conclude s (jumpWhen taken a b s) = .next { s with pc := y.toNat, rs := .running } := by
  rw [jumpWhen_of_taken hx hy ht, jumpTarget_of_nonneg hpos]
  rfl

/-- A jump not taken falls through its three cells. -/
theorem conclude_jumpWhen_of_not_taken (hx : readOperand s.mem (locate s.rb a) = .ok x)
    (hy : readOperand s.mem (locate s.rb b) = .ok y) (ht : taken x = false) :
    conclude s (jumpWhen taken a b s) = .next { s with pc := s.pc + 3, rs := .running } := by
  rw [jumpWhen_of_not_taken hx hy ht]
  rfl

end

/-- Settles O33: JNZ is taken where the zero test fails. -/
theorem jnzJumpsWhereTheOperandIsNotZero : Obligations.JnzJumpsWhereTheOperandIsNotZero := by
  unfold Obligations.JnzJumpsWhereTheOperandIsNotZero
  intro a b s x y hx hy
  exact ⟨fun hne hpos => conclude_jumpWhen_of_taken hx hy (by simpa using hne) hpos,
    fun hzero => conclude_jumpWhen_of_not_taken hx hy (by simpa using hzero)⟩

/-- Settles O34: JZ is taken where the zero test holds. -/
theorem jzJumpsWhereTheOperandIsZero : Obligations.JzJumpsWhereTheOperandIsZero := by
  unfold Obligations.JzJumpsWhereTheOperandIsZero
  intro a b s x y hx hy
  exact ⟨fun hzero hpos => conclude_jumpWhen_of_taken hx hy (isZero_eq_true.mpr hzero) hpos,
    fun hne => conclude_jumpWhen_of_not_taken hx hy (isZero_eq_false.mpr hne)⟩

/-! ### The faults of the jumps -/

/-- An instruction that runs the shared executor of the jumps raises what its first load, then its second load, then its
target raises; the second load is made, taken or not. R68, R81, R109. -/
theorem jumpFaultsInOrder_of_jumpWhen {mk : Operand → Operand → Instr} {P : Int → Prop} {taken : Int → Bool}
    (hexec : ∀ a b s, exec (mk a b) s = conclude s (jumpWhen taken a b s)) (htaken : ∀ x, P x → taken x = true) :
    JumpFaultsInOrder mk P := by
  intro a b s
  rw [hexec]
  refine ⟨?first, ?second, ?target⟩
  case first =>
    intro addr ha hinvalid
    rw [jumpWhen_of_readTwo_error (readTwo_of_first_error (readOperand_of_not_valid ha hinvalid))]
    rfl
  case second =>
    intro x addr hx hb hinvalid
    rw [jumpWhen_of_readTwo_error (readTwo_of_second_error hx (readOperand_of_not_valid hb hinvalid))]
    rfl
  case target =>
    intro x y hx hy hp hneg
    rw [jumpWhen_of_taken hx hy (htaken x hp), jumpTarget_of_neg hneg]
    rfl

/-- Settles O35: both jumps run the shared executor, each with its own zero test. -/
theorem jumpsFaultInOrder : Obligations.JumpsFaultInOrder := by
  unfold Obligations.JumpsFaultInOrder
  exact ⟨jumpFaultsInOrder_of_jumpWhen (fun _ _ _ => rfl) fun _ hne => by simpa using hne,
    jumpFaultsInOrder_of_jumpWhen (fun _ _ _ => rfl) fun _ hzero => isZero_eq_true.mpr hzero⟩

/-! ### A jump beyond memory -/

/-- An enabled step with `pc` beyond memory faults at the fetch. R12, R27. -/
theorem step_of_size_le {s : State} (he : s.rs.enabled = true) (hsize : s.mem.size ≤ s.pc) :
    step s = .next (faultedFrom s .memoryBounds s.pc) :=
  step_of_fetchInstr_error he (fetchInstr_of_size_le hsize)

/-- Settles O36: the jump completes wherever it goes, and the state it leaves is enabled with `pc` beyond memory. -/
theorem jumpBeyondMemoryFaultsAtTheNextFetch : Obligations.JumpBeyondMemoryFaultsAtTheNextFetch := by
  unfold Obligations.JumpBeyondMemoryFaultsAtTheNextFetch
  intro s a b x y he hjump hx hy hbeyond
  have hpos : 0 ≤ y := (Int.natCast_nonneg _).trans hbeyond
  have hstep : step s = .next { s with pc := y.toNat, rs := .running } := by
    obtain ⟨hi, hne⟩ | ⟨hi, hzero⟩ := hjump
    · exact (step_of_fetchInstr he hi).trans ((jnzJumpsWhereTheOperandIsNotZero a b s x y hx hy).1 hne hpos)
    · exact (step_of_fetchInstr he hi).trans ((jzJumpsWhereTheOperandIsZero a b s x y hx hy).1 hzero hpos)
  have hpc : (y.toNat : Int) = y := Int.toNat_of_nonneg hpos
  have hfetch : s.mem.size ≤ y.toNat := by omega
  refine ⟨_, hstep, rfl, hpc, ?_⟩
  rw [step_of_size_le rfl hfetch, hpc]

end Sys2Proof.Machine
end

section
/-! PROOFS. Compare: the whole result of LT and EQ, and the table of both, R82 to R84. -/

namespace Sys2Proof.Machine

/-- The truth value of a relation, in the spec's own words: "1 if …, else 0". R82, R83. -/
theorem truthWord_decide (P : Prop) [Decidable P] : truthWord (decide P) = if P then 1 else 0 :=
  if_congr decide_eq_true_iff rfl rfl

/-- Neither result of a comparison can overflow: both are words at every width. R84. -/
theorem ite_one_zero_inRange (p : Config.Params) (P : Prop) [Decidable P] : Word.InRange p (if P then 1 else 0) :=
  truthWord_decide P ▸ truthWord_inRange p (decide P)

/-- Settles O26: LT computes the truth value of "less than" and has no range check to pass. -/
theorem ltStoresTheComparison : Obligations.LtStoresTheComparison :=
  storesResult_of_computeAndStore (g := fun _ x y => .ok (truthWord (decide (x < y)))) (fun _ _ _ _ => rfl)
    fun _ x y _ => congrArg Except.ok (truthWord_decide (x < y))

/-- Settles O27: EQ computes the truth value of equality and has no range check to pass. -/
theorem eqStoresTheComparison : Obligations.EqStoresTheComparison :=
  storesResult_of_computeAndStore (g := fun _ x y => .ok (truthWord (decide (x = y)))) (fun _ _ _ _ => rfl)
    fun _ x y _ => congrArg Except.ok (truthWord_decide (x = y))

/-- Settles O28: both results are words, so both instructions complete; which of the three relations holds decides what
the two cells hold. -/
theorem comparisonsStoreExactlyOneOrZero : Obligations.ComparisonsStoreExactlyOneOrZero := by
  unfold Obligations.ComparisonsStoreExactlyOneOrZero
  intro a b dest s x y addr hwf hx hy ha hvalid
  obtain ⟨t, ht, hlt, -⟩ :=
    ltStoresTheComparison a b dest s x y addr hwf hx hy (ite_one_zero_inRange s.params (x < y)) ha hvalid
  obtain ⟨u, hu, heq, -⟩ :=
    eqStoresTheComparison a b dest s x y addr hwf hx hy (ite_one_zero_inRange s.params (x = y)) ha hvalid
  refine ⟨t, u, ht, hu, fun hless => ?less, fun hequal => ?equal, fun hgreater => ?greater⟩
  case less => exact ⟨hlt.trans (congrArg _ (if_pos hless)), heq.trans (congrArg _ (if_neg hless.ne))⟩
  case equal => exact ⟨hlt.trans (congrArg _ (if_neg hequal.not_lt)), heq.trans (congrArg _ (if_pos hequal))⟩
  case greater => exact ⟨hlt.trans (congrArg _ (if_neg hgreater.not_gt)), heq.trans (congrArg _ (if_neg hgreater.ne'))⟩

end Sys2Proof.Machine
end

section
/-! PROOFS. Base: the whole result of ARB and its faults, R85, and that only ARB and `RESET` change `rb`, R86. -/

namespace Sys2Proof.Machine

open Spec

/-! ### ARB, run -/

section

variable {a : Operand} {s : State} {x : Int}

/-- An ARB whose load answers concludes with the range check of the sum. R85. -/
theorem execArb_of_read_ok (hx : readOperand s.mem (locate s.rb a) = .ok x) :
    exec (.arb a) s = conclude s (narrow s.params (s.rb + x) >>= fun rb => .ok { commit s 2 with rb := rb }) := by
  simp only [exec, execArb, hx]
  rfl

/-- An ARB whose load raises takes the fault. R85. -/
theorem execArb_of_read_error {f : Fatal} (hf : readOperand s.mem (locate s.rb a) = .error f) :
    exec (.arb a) s = .next (takeFault s f) := by
  simp only [exec, execArb, hf]
  rfl

/-- An ARB whose sum is a word completes. R85. -/
theorem execArb_of_inRange (hx : readOperand s.mem (locate s.rb a) = .ok x) (hsum : Word.InRange s.params (s.rb + x)) :
    exec (.arb a) s = .next { s with rb := s.rb + x, pc := s.pc + 2, rs := .running } := by
  rw [execArb_of_read_ok hx, narrow_of_inRange hsum]
  rfl

/-- An ARB whose sum is no word takes the overflow. R75, R85. -/
theorem execArb_of_not_inRange (hx : readOperand s.mem (locate s.rb a) = .ok x)
    (hsum : ¬ Word.InRange s.params (s.rb + x)) :
    exec (.arb a) s = .next (takeFault s ⟨.arithmeticOverflow, s.rb + x⟩) := by
  rw [execArb_of_read_ok hx, narrow_of_not_inRange hsum]
  rfl

/-- An overflow whose exact result `fval` can hold is recorded with it. R19, R107. -/
theorem takeFault_overflow_of_fits (hfits : Config.fvalMin s.params ≤ x ∧ x ≤ Config.fvalMax s.params) :
    takeFault s ⟨.arithmeticOverflow, x⟩ = faultedFrom s .arithmeticOverflow x :=
  congrArg (faultedFrom s .arithmeticOverflow) (heldResult_of_fits hfits)

end

/-- Settles O37: ARB does what its load and the range check of the sum answer; the sum of two words fits `fval`. -/
theorem arbAddsTheOperandToTheBase : Obligations.ArbAddsTheOperandToTheBase := by
  unfold Obligations.ArbAddsTheOperandToTheBase
  intro a s
  refine ⟨fun x hx hsum => execArb_of_inRange hx hsum, ?overflow, ?outside⟩
  case overflow =>
    intro x hx hbase hword hsum
    rw [execArb_of_not_inRange hx hsum, takeFault_overflow_of_fits (Word.sum_fits_fval hbase hword)]
  case outside => exact fun addr ha hinvalid => execArb_of_read_error (readOperand_of_not_valid ha hinvalid)

/-! ### What changes `rb` -/

/-- An ARB that changes `rb` has completed and has added the value of its operand. R85, R110. -/
theorem execArb_changes_rb {a : Operand} {s t : State} (h : exec (.arb a) s = .next t) (hne : t.rb ≠ s.rb) :
    t.rs = .running ∧ ∃ x, readOperand s.mem (locate s.rb a) = .ok x ∧ t.rb = s.rb + x := by
  obtain ⟨u, hu, rfl⟩ | ⟨f, -, rfl⟩ := conclude_cases h
  · obtain ⟨x, hx, hu⟩ := bind_ok.mp hu
    obtain ⟨rb, hrb, hu⟩ := bind_ok.mp hu
    cases hu
    exact ⟨rfl, x, hx, (narrow_ok hrb).1⟩
  · exact absurd rfl hne

/-- An instruction other than ARB leaves `rb` as it is, whether it has a write operand or not. R86. -/
theorem exec_keeps_rb {i : Instr} {s t : State} (h : exec i s = .next t) (hi : ∀ a, i ≠ .arb a) : t.rb = s.rb := by
  cases hd : i.dest with
  | some dest =>
    obtain ⟨-, -, -, -, hrb, -⟩ := storingInstructionsChangeOnlyTheirCell i dest s t hd h
    exact hrb
  | none =>
    obtain ⟨-, -, -, -, -, -, hrb, -⟩ := otherInstructionsLeaveMemoryUnchanged i s t hd h
    exact hrb hi

/-- A step that changes `rb` is enabled and runs an ARB. R86. -/
theorem step_changes_rb {s t : State} (h : step s = .next t) (hne : t.rb ≠ s.rb) :
    s.rs.enabled = true ∧ ∃ a, fetchInstr s.mem s.pc = .ok (.arb a) ∧ exec (.arb a) s = .next t := by
  obtain ⟨-, rfl⟩ | ⟨-, f, -, rfl⟩ | ⟨he, i, hi, hexec⟩ := step_cases h
  · exact absurd rfl hne
  · exact absurd rfl hne
  · obtain ⟨a, rfl⟩ : ∃ a, i = .arb a := by
      by_contra hno
      exact hne (exec_keeps_rb hexec (not_exists.mp hno))
    exact ⟨he, a, hi, hexec⟩

/-- A transaction other than `RESET` and `STEP` writes memory and the queues alone. R92 to R95. -/
theorem transact_writes_mem_and_queues {tx : Transaction} {s t : State} {reply : Reply}
    (h : transact tx s = .next (t, reply)) (hreset : ∀ image input0, tx ≠ .reset image input0) (hstep : tx ≠ .step) :
    t = { s with mem := t.mem, inq := t.inq, outq := t.outq } := by
  cases tx with
  | reset image input0 => exact absurd rfl (hreset image input0)
  | step => exact absurd rfl hstep
  | pushInput v =>
    obtain ⟨-, rfl, -⟩ := hostPushInput_next h
    rfl
  | popOutput => obtain ⟨-, rfl, -⟩ | ⟨_, _, -, rfl, -⟩ := hostPopOutput_next h <;> rfl
  | memRead a =>
    obtain ⟨rfl, -⟩ := hostMemRead_next h
    rfl
  | memWrite a v =>
    obtain ⟨-, _, -, rfl, -⟩ := hostMemWrite_next h
    rfl
  | readInput | readOutput | readStatus =>
    cases h
    rfl

/-- Settles O42: a change of `rb` is a `RESET` or a step, the step runs an ARB, and the ARB has added its operand; a relative
operand is the cell at its sum; and 0 plus the operand is the operand. -/
theorem onlyArbAndResetChangeTheBase : Obligations.OnlyArbAndResetChangeTheBase := by
  unfold Obligations.OnlyArbAndResetChangeTheBase
  refine ⟨?changes, ?relative, ?firstArb⟩
  case changes =>
    intro tx s t reply h hne
    by_cases hreset : ∃ image input0, tx = .reset image input0
    · exact .inl hreset
    · have hstep : tx = .step := by
        by_contra hother
        have hframe := congrArg State.rb
          (transact_writes_mem_and_queues h (fun image input0 htx => hreset ⟨image, input0, htx⟩) hother)
        exact hne hframe
      subst hstep
      obtain ⟨he, a, hi, hexec⟩ := step_changes_rb (hostStep_next h).1 hne
      obtain ⟨hr, x, hx, hsum⟩ := execArb_changes_rb hexec hne
      exact .inr ⟨rfl, he, hr, a, x, hi, hx, hsum⟩
  case relative =>
    exact fun m rb k x => ⟨rfl, rfl, fun m' hwf (hm : memWrite m (rb + k) x = .ok m') => memRead_memWrite_same hwf hm⟩
  case firstArb =>
    intro s a b hzero hb hword
    have hsum : s.rb + b = b := by rw [hzero, zero_add]
    exact ⟨_, execArb_of_inRange hb (hsum.symm ▸ hword), hsum, rfl⟩

end Sys2Proof.Machine
end

section
/-! PROOFS. Halt: what HLT does, and that no other instruction halts, R87 and R88. -/

namespace Sys2Proof.Machine

/-- Settles O38: HLT examines nothing, so its commit and its report are its whole effect in every state. -/
theorem hltCommitsAndHalts : Obligations.HltCommitsAndHalts := fun _ => rfl

/-- Only HLT reports `Halted`: a waiting IN reports `NeedsInput`, and the others report `Running` or fault. R88. -/
theorem eq_hlt_of_exec_halted {i : Instr} {s t : State} (h : exec i s = .next t) (hhalted : t.rs = .halted) :
    i = .hlt := by
  obtain (hrunning | hfaulted) | ⟨_, -, -, rfl⟩ | ⟨hi, -⟩ := exec_reports h
  · exact nomatch hrunning.symm.trans hhalted
  · exact nomatch hfaulted.symm.trans hhalted
  · exact nomatch hhalted
  · exact hi

/-- Settles O19: an enabled step that ends in `Halted` has fetched an instruction, which is HLT, and HLT's effect is O38. -/
theorem onlyHltReachesHalted : Obligations.OnlyHltReachesHalted := by
  unfold Obligations.OnlyHltReachesHalted
  intro s t he h hhalted
  obtain ⟨hdisabled, -⟩ | ⟨-, f, -, rfl⟩ | ⟨-, i, hi, hexec⟩ := step_cases h
  · exact nomatch he.symm.trans hdisabled
  · exact nomatch hhalted
  · obtain rfl := eq_hlt_of_exec_halted hexec hhalted
    exact ⟨hi, Host.Outcome.next.inj (hexec.symm.trans (hltCommitsAndHalts s))⟩

end Sys2Proof.Machine
end

section
/-! PROOFS. HostInterface: what each host transaction answers, and when it is refused, R89 to R95. -/

namespace Sys2Proof.Machine

/-! ### One cell -/

section

variable {s : State} {a v : Int}

theorem hostMemRead_of_read_ok (h : memRead s.mem a = .ok v) : hostMemRead a s = .next (s, .word v) := by
  simp only [hostMemRead, h]

theorem hostMemRead_of_read_error {f : Fatal} (h : memRead s.mem a = .error f) :
    hostMemRead a s = .refused .hostAddressOutsideMemory := by
  simp only [hostMemRead, h]

/-- A write that answers is made if its value is a word. R95. -/
theorem hostMemWrite_of_write_ok {m : Memory} (h : memWrite s.mem a v = .ok m) :
    hostMemWrite a v s =
      if Word.InRange s.params v then .next ({ s with mem := m }, .nothing) else .refused .notAWord := by
  simp only [hostMemWrite, h]

theorem hostMemWrite_of_write_error {f : Fatal} (h : memWrite s.mem a v = .error f) :
    hostMemWrite a v s = .refused .hostAddressOutsideMemory := by
  simp only [hostMemWrite, h]

end

/-- Settles O49: a host access is the access of an instruction, so it is made exactly inside the bounds and its frame is that
of `MemWrite`; the value is looked at after the address. -/
theorem hostMemoryAccessReadsOrSetsOneCell : Obligations.HostMemoryAccessReadsOrSetsOneCell := by
  unfold Obligations.HostMemoryAccessReadsOrSetsOneCell
  intro s a v hwf
  refine ⟨fun hvalid => ⟨?read, fun hword => ?write, fun hnoWord => ?noWord⟩, fun hinvalid => ?outside⟩
  case read =>
    have hr := memRead_of_valid hvalid
    exact ⟨_, hr, hostMemRead_of_read_ok hr⟩
  case write =>
    obtain ⟨m, hm⟩ : ∃ m, memWrite s.mem a v = .ok m := ⟨_, memWrite_of_valid v hvalid⟩
    exact ⟨_, (hostMemWrite_of_write_ok hm).trans (if_pos hword), memRead_memWrite_same hwf hm,
      fun _ hc => memRead_memWrite_other hm hc, memWrite_size hm, rfl⟩
  case noWord => exact (hostMemWrite_of_write_ok (memWrite_of_valid v hvalid)).trans (if_neg hnoWord)
  case outside =>
    exact ⟨hostMemRead_of_read_error (memRead_of_not_valid hinvalid),
      hostMemWrite_of_write_error (memWrite_of_not_valid v hinvalid)⟩

/-! ### The queues -/

/-- Settles O46: the one test of a push is that its value is a word. -/
theorem pushInputAppendsAndChangesNothingElse : Obligations.PushInputAppendsAndChangesNothingElse := by
  unfold Obligations.PushInputAppendsAndChangesNothingElse
  exact fun s v => ⟨fun hword => if_pos hword, fun hnoWord => if_neg hnoWord, rfl⟩

theorem hostPopOutput_of_empty {s : State} (hq : s.outq = []) : hostPopOutput s = .next (s, .empty) := by
  simp only [hostPopOutput, hq]

theorem hostPopOutput_of_cons {s : State} {v : Int} {rest : List Int} (hq : s.outq = v :: rest) :
    hostPopOutput s = .next ({ s with outq := rest }, .word v) := by
  simp only [hostPopOutput, hq]

/-- Settles O47: a pop by the two forms of the queue. -/
theorem popOutputRemovesTheHead : Obligations.PopOutputRemovesTheHead := by
  unfold Obligations.PopOutputRemovesTheHead
  exact fun s => ⟨hostPopOutput_of_empty, fun v rest => hostPopOutput_of_cons, rfl⟩

/-! ### The status -/

/-- Settles O48: a step always answers a next state, and `STEP` returns the run-state of that. -/
theorem stepReportsTheRunStateItLeaves : Obligations.StepReportsTheRunStateItLeaves := by
  unfold Obligations.StepReportsTheRunStateItLeaves
  intro s
  obtain ⟨t, hstep⟩ := step_next s
  exact ⟨t, hstep, hostStep_of_next hstep, rfl⟩

end Sys2Proof.Machine
end

section
/-! PROOFS. Exceptions: a fault is precise and recorded, only `RESET` leaves it, and the faults of the instructions that
compute and store in order, R106 to R111. -/

namespace Sys2Proof.Machine

open Spec

/-! ### Fault entry -/

/-- An instruction comes to `Faulted` by fault entry alone. R106. -/
theorem exec_faulted {i : Instr} {s t : State} (h : exec i s = .next t) (hfaulted : t.rs = .faulted) :
    ∃ f, t = takeFault s f := by
  obtain hfault | ⟨_, -, -, rfl⟩ | ⟨-, rfl⟩ | ⟨_, _, _, _, _, _, -, -, -, -, -, rfl⟩ | ⟨_, _, -, -, rfl⟩ |
    ⟨_, _, _, -, -, rfl⟩ | ⟨_, _, -, -, rfl⟩ := exec_cases h
  · exact hfault
  · exact nomatch hfaulted
  · exact nomatch hfaulted
  · exact nomatch hfaulted
  · exact nomatch hfaulted
  · exact nomatch hfaulted
  · exact nomatch hfaulted

/-- An enabled step comes to `Faulted` by fault entry alone: of what the fetch raises, or of what the instruction raises. -/
theorem step_faulted {s t : State} (he : s.rs.enabled = true) (h : step s = .next t) (hfaulted : t.rs = .faulted) :
    ∃ f, t = takeFault s f := by
  obtain ⟨hdisabled, -⟩ | ⟨-, f, -, rfl⟩ | ⟨-, i, -, hexec⟩ := step_cases h
  · exact nomatch he.symm.trans hdisabled
  · exact ⟨f, rfl⟩
  · exact exec_faulted hexec hfaulted

/-- Settles O17: every fault is taken by fault entry from the state at the start of the step, and what a fetch raises is
never an overflow, so its value is recorded as it is. -/
theorem faultsArePreciseAndRecorded : Obligations.FaultsArePreciseAndRecorded := by
  unfold Obligations.FaultsArePreciseAndRecorded
  intro s he
  refine ⟨fun t h hfaulted => ?precise, fun f hf => ?recorded⟩
  case precise =>
    obtain ⟨f, rfl⟩ := step_faulted he h hfaulted
    exact ⟨f.cause, rfl⟩
  case recorded =>
    rw [step_of_fetchInstr_error he hf, ← fetchInstr_error_recorded s.params hf]
    rfl

/-! ### What leaves `Faulted` and what writes the fault registers -/

/-- The fault registers of `t` are those of `s`. -/
def SameFaultRegisters (s t : State) : Prop := t.fcause = s.fcause ∧ t.fpc = s.fpc ∧ t.fval = s.fval

/-- An instruction that does not fault leaves the fault registers as they are, whether it has a write operand or not. -/
theorem exec_keeps_fault_registers {i : Instr} {s t : State} (h : exec i s = .next t) (hr : t.rs ≠ .faulted) :
    SameFaultRegisters s t := by
  cases hd : i.dest with
  | some dest =>
    obtain ⟨-, -, -, -, -, -, -, -, hkept⟩ := storingInstructionsChangeOnlyTheirCell i dest s t hd h
    exact hkept hr
  | none =>
    obtain ⟨-, -, -, -, -, -, -, hkept⟩ := otherInstructionsLeaveMemoryUnchanged i s t hd h
    exact hkept hr

/-- A step that does not end in `Faulted` leaves the fault registers as they are. R111. -/
theorem step_keeps_fault_registers {s t : State} (h : step s = .next t) (hr : t.rs ≠ .faulted) :
    SameFaultRegisters s t := by
  obtain ⟨-, rfl⟩ | ⟨-, f, -, rfl⟩ | ⟨-, i, -, hexec⟩ := step_cases h
  · exact ⟨rfl, rfl, rfl⟩
  · exact absurd rfl hr
  · exact exec_keeps_fault_registers hexec hr

/-- A step in `Faulted` changes nothing. R55. -/
theorem eq_of_step_of_faulted {s t : State} (hs : s.rs = .faulted) (h : step s = .next t) : t = s := by
  rw [step_of_not_enabled ((enabled_eq_false s.rs).mpr (.inr hs))] at h
  exact (Host.Outcome.next.inj h).symm

/-- A transaction other than `RESET` and `STEP` leaves `rs` and the fault registers as they are. -/
theorem transact_keeps_rs_and_fault_registers {tx : Transaction} {s t : State} {reply : Reply}
    (h : transact tx s = .next (t, reply)) (hreset : ∀ image input0, tx ≠ .reset image input0) (hstep : tx ≠ .step) :
    t.rs = s.rs ∧ SameFaultRegisters s t := by
  rw [transact_writes_mem_and_queues h hreset hstep]
  exact ⟨rfl, rfl, rfl, rfl⟩

/-- In `Faulted` a transaction other than `RESET` leaves `rs` and the fault registers as they are. R111. -/
theorem transact_keeps_faulted {tx : Transaction} {s t : State} {reply : Reply} (hs : s.rs = .faulted)
    (h : transact tx s = .next (t, reply)) (hreset : ∀ image input0, tx ≠ .reset image input0) :
    t.rs = .faulted ∧ SameFaultRegisters s t := by
  by_cases hstep : tx = .step
  · subst hstep
    obtain rfl := eq_of_step_of_faulted hs (hostStep_next h).1
    exact ⟨hs, rfl, rfl, rfl⟩
  · obtain ⟨hrs, hkept⟩ := transact_keeps_rs_and_fault_registers h hreset hstep
    exact ⟨hrs.trans hs, hkept⟩

/-- A transaction other than `RESET` that does not end in `Faulted` leaves the fault registers as they are. R111. -/
theorem transact_keeps_fault_registers {tx : Transaction} {s t : State} {reply : Reply} (ht : t.rs ≠ .faulted)
    (h : transact tx s = .next (t, reply)) (hreset : ∀ image input0, tx ≠ .reset image input0) :
    SameFaultRegisters s t := by
  by_cases hstep : tx = .step
  · subst hstep
    exact step_keeps_fault_registers (hostStep_next h).1 ht
  · exact (transact_keeps_rs_and_fault_registers h hreset hstep).2

/-- Settles O18: of the transactions but `RESET` only `STEP` can write `rs` and the fault registers, and `STEP` does nothing
in `Faulted` and writes the fault registers at a fault alone. -/
theorem onlyResetLeavesFaulted : Obligations.OnlyResetLeavesFaulted := by
  unfold Obligations.OnlyResetLeavesFaulted
  refine ⟨fun tx s t reply hs h => ?fromFaulted, fun tx s t reply ht h => ?notFaulted,
    fun image input0 s t reply h => ?reset⟩
  case fromFaulted =>
    exact or_iff_not_imp_left.mpr fun hreset => transact_keeps_faulted hs h (by simpa using hreset)
  case notFaulted =>
    exact or_iff_not_imp_left.mpr fun hreset => transact_keeps_fault_registers ht h (by simpa using hreset)
  case reset =>
    obtain ⟨-, -, -, rfl, -⟩ := hostReset_next h
    exact ⟨rfl, rfl, rfl, rfl⟩

/-! ### The shared executor of ADD, MUL, LT and EQ, where a part of it raises -/

section

variable {g : Int → Int → Except Fatal Int} {a b dest : Operand} {s : State} {x y r : Int} {f : Fatal}

theorem computeAndStore_of_readTwo_error (h : readTwo s.mem (locate s.rb a) (locate s.rb b) = .error f) :
    computeAndStore g a b dest s = .error f := bind_error.mpr (.inl h)

/-- Both operands loaded, what the computation raises comes before the store. R68, R109. -/
theorem computeAndStore_of_result_error (hx : readOperand s.mem (locate s.rb a) = .ok x)
    (hy : readOperand s.mem (locate s.rb b) = .ok y) (hf : g x y = .error f) :
    computeAndStore g a b dest s = .error f :=
  bind_error.mpr (.inr ⟨(x, y), readTwo_ok.mpr ⟨hx, hy⟩, bind_error.mpr (.inl hf)⟩)

/-- The result computed, what its store raises comes last. R68, R109. -/
theorem computeAndStore_of_store_error (hx : readOperand s.mem (locate s.rb a) = .ok x)
    (hy : readOperand s.mem (locate s.rb b) = .ok y) (hr : g x y = .ok r)
    (hf : storeOperand s.mem (locate s.rb dest) r = .error f) : computeAndStore g a b dest s = .error f :=
  bind_error.mpr (.inr ⟨(x, y), readTwo_ok.mpr ⟨hx, hy⟩, bind_error.mpr (.inr ⟨r, hr, bind_error.mpr (.inl hf)⟩)⟩)

end

/-- An instruction that runs the shared executor with `g`, where `g` answers `f` or raises the overflow of `f`, raises what
its first load, its second load, `g` and its store raise, the earlier before the later. R68, R109. -/
theorem faultsInOrder_of_computeAndStore {mk : Operand → Operand → Operand → Instr} {f : Int → Int → Int}
    {g : Config.Params → Int → Int → Except Fatal Int}
    (hexec : ∀ a b dest s, exec (mk a b dest) s = conclude s (computeAndStore (g s.params) a b dest s))
    (hword : ∀ p x y, Word.InRange p (f x y) → g p x y = .ok (f x y))
    (hnoWord : ∀ p x y, ¬ Word.InRange p (f x y) → g p x y = .error ⟨.arithmeticOverflow, f x y⟩) :
    FaultsInOrder mk f := by
  intro a b dest s
  rw [hexec]
  refine ⟨?first, ?second, ?overflow, ?immediate, ?outside⟩
  case first =>
    intro addr ha hinvalid
    rw [computeAndStore_of_readTwo_error (readTwo_of_first_error (readOperand_of_not_valid ha hinvalid))]
    rfl
  case second =>
    intro x addr hx hb hinvalid
    rw [computeAndStore_of_readTwo_error (readTwo_of_second_error hx (readOperand_of_not_valid hb hinvalid))]
    rfl
  case overflow =>
    intro x y hx hy hrange
    rw [computeAndStore_of_result_error hx hy (hnoWord s.params x y hrange)]
    exact ⟨heldResult s.params (f x y), rfl, fun hlow hhigh => heldResult_of_fits ⟨hlow, hhigh⟩⟩
  case immediate =>
    rintro x y v hx hy hrange rfl
    rw [computeAndStore_of_store_error hx hy (hword s.params x y hrange) rfl]
    rfl
  case outside =>
    intro x y addr hx hy hrange ha hinvalid
    rw [computeAndStore_of_store_error hx hy (hword s.params x y hrange) (storeOperand_of_not_valid _ ha hinvalid)]
    rfl

/-- Settles O29: all four run the shared executor; ADD and MUL narrow their result, and a comparison's result is a word, so
that it never overflows. -/
theorem storingInstructionsFaultInOrder : Obligations.StoringInstructionsFaultInOrder := by
  unfold Obligations.StoringInstructionsFaultInOrder
  refine ⟨?add, ?mul, ?lt, ?eq⟩
  case add =>
    exact faultsInOrder_of_computeAndStore (fun _ _ _ _ => rfl) (fun _ _ _ h => narrow_of_inRange h)
      fun _ _ _ h => narrow_of_not_inRange h
  case mul =>
    exact faultsInOrder_of_computeAndStore (fun _ _ _ _ => rfl) (fun _ _ _ h => narrow_of_inRange h)
      fun _ _ _ h => narrow_of_not_inRange h
  case lt =>
    exact faultsInOrder_of_computeAndStore (g := fun _ x y => .ok (truthWord (decide (x < y)))) (fun _ _ _ _ => rfl)
      (fun _ x y _ => congrArg Except.ok (truthWord_decide (x < y)))
      fun p x y h => absurd (ite_one_zero_inRange p (x < y)) h
  case eq =>
    exact faultsInOrder_of_computeAndStore (g := fun _ x y => .ok (truthWord (decide (x = y)))) (fun _ _ _ _ => rfl)
      (fun _ x y _ => congrArg Except.ok (truthWord_decide (x = y)))
      fun p x y h => absurd (ite_one_zero_inRange p (x = y)) h

end Sys2Proof.Machine
end

section
/-! PROOFS. Reset: what `RESET` loads and clears, R115 to R117. -/

namespace Sys2Proof.Machine

/-- Cell `k` of the memory that an image makes holds its element `k`. R116. -/
theorem memRead_ofImage {image : List Int} {k : Nat} {v : Int} (h : image[k]? = some v) :
    memRead (Memory.ofImage image) k = .ok v := by
  obtain ⟨hlt, rfl⟩ := List.getElem?_eq_some_iff.mp h
  have hvalid : (Memory.ofImage image).Valid k := ⟨Int.natCast_nonneg k, Int.ofNat_lt.mpr hlt⟩
  have hget := cellsGet_imageCells image 0 k
  rw [Nat.zero_add, List.getD_eq_getElem _ _ hlt] at hget
  rw [memRead_of_valid hvalid, Int.toNat_natCast, ← hget]
  rfl

/-- A `RESET` that R6 and R90 allow is made, from any state. -/
theorem hostReset_of_allowed {image input0 : List Int} {s : State} (hsize : (image.length : Int) ≤ Config.WMAX s.params)
    (himage : AllWords s.params image) (hinput : AllWords s.params input0) :
    hostReset image input0 s = .next (resetWith s.params image input0, .nothing) := by
  rw [hostReset, if_pos hsize, if_pos ⟨himage, hinput⟩]

/-- Settles O9: `RESET` answers the reset state of its image and input, and from that of the empty image the first fetch
stands at the end of memory. -/
theorem resetLoadsTheImageAndClearsTheRest : Obligations.ResetLoadsTheImageAndClearsTheRest := by
  unfold Obligations.ResetLoadsTheImageAndClearsTheRest
  refine ⟨fun image input0 s hsize himage hinput => ?loads, fun p input0 => ?emptyImage⟩
  case loads =>
    exact ⟨_, hostReset_of_allowed hsize himage hinput, rfl, fun _ _ hk => memRead_ofImage hk,
      rfl, rfl, rfl, rfl, rfl, rfl, rfl, rfl⟩
  case emptyImage => exact step_of_size_le rfl (Nat.le_refl 0)

end Sys2Proof.Machine
end

section
/-! PROOFS. SampleDecodings: the spec's decoding examples, 95_test_vectors.md section 2.7. -/

namespace Sys2Proof

/-- Words that are the encoding of an instruction decode to it, and nothing is left over. -/
theorem decode_of_encode_eq {i : Instr} {ws : List Int} (h : encode i = ws) : decode ws = .ok (i, []) := by
  rw [← h, ← List.append_nil (encode i)]
  exact decode_encode_append i []

/-- Settles O3: each example's words are the encoding of the instruction that the spec names. -/
theorem sampleWordsDecodeAsTheSpecSays : Obligations.SampleWordsDecodeAsTheSpecSays := by
  unfold Obligations.SampleWordsDecodeAsTheSpecSays
  intro v1 v2 v3
  refine ⟨decode_of_encode_eq ?_, decode_of_encode_eq ?_, decode_of_encode_eq ?_, decode_of_encode_eq ?_,
    decode_of_encode_eq ?_, decode_of_encode_eq ?_, decode_of_encode_eq ?_, decode_of_encode_eq ?_⟩ <;>
  simp [encode, instructionWord, Instr.opcode, Instr.operands, modesNumber, Operand.modeDigit, Operand.word]

end Sys2Proof
end
